-- ==== Sys2Proof/Word.lean ====
section
/-! DEFINITION. The two word types of the block (00_scope.md section 5.1): every value is unsigned. -/

namespace Sys2Proof

/-- `u8`, an unsigned value 0..255. -/
abbrev Byte := BitVec 8

/-- `u16`, an unsigned value 0..65535. -/
abbrev U16 := BitVec 16

end Sys2Proof
end

