-- ==== Sys2Proof/Config.lean ====
section
/-! DEFINITION. The constants of the block (00_scope.md R2, R3), the parameters that no run changes (R4), and
the free values. Every numeric literal of the source stands here once (93_implementation_defined.md U25). -/

namespace Sys2Proof

/-! ## Geometry and ports (R2) -/

/-- MEM_SIZE. -/
@[simp] abbrev Config.memSize : Nat := 65536
/-- 2 ^ PORT_ADDR_BITS: port addresses are masked to the low byte. -/
@[simp] abbrev Config.portCount : Nat := 256
/-- CMD_PORT. -/
@[simp] abbrev Config.cmdPort : Byte := 0x00
/-- CONSOLE_PORT. -/
@[simp] abbrev Config.consolePort : Byte := 0x80
/-- SECTOR_SIZE. -/
@[simp] abbrev Config.sectorSize : Nat := 128
/-- SECTORS_PER_TRACK. -/
@[simp] abbrev Config.sectorsPerTrack : Nat := 64

/-! ## Response values (R2, 30_encoding.md R60) -/

/-- POLL_AGAIN. -/
@[simp] abbrev Config.pollAgain : Byte := 0x00
/-- SUCCESS. -/
@[simp] abbrev Config.success : Byte := 0x01
/-- FAILURE: a defined constant with no producer (30_encoding.md R61). -/
@[simp] abbrev Config.failure : Byte := 0xFF
/-- READY. -/
@[simp] abbrev Config.ready : Byte := 0x01
/-- NOT_READY. -/
@[simp] abbrev Config.notReady : Byte := 0xFF

/-! ## Command codes (R2) -/

@[simp] abbrev Config.cmdRead : Byte := 1
@[simp] abbrev Config.cmdWrite : Byte := 2
@[simp] abbrev Config.cmdConst : Byte := 3
@[simp] abbrev Config.cmdConin : Byte := 4
@[simp] abbrev Config.cmdSerout : Byte := 5
@[simp] abbrev Config.cmdReadsum : Byte := 6
@[simp] abbrev Config.cmdWritesum : Byte := 7
@[simp] abbrev Config.cmdReaddma : Byte := 9
@[simp] abbrev Config.cmdWritedma : Byte := 10

/-! ## Frame lengths (30_encoding.md R51, R52) -/

/-- Format K: CONST, CONIN. -/
@[simp] abbrev Config.frameLenK : Nat := 1
/-- Format S: READSUM, WRITESUM. -/
@[simp] abbrev Config.frameLenS : Nat := 6
/-- Format D: READDMA, WRITEDMA. -/
@[simp] abbrev Config.frameLenD : Nat := 8
/-- MAX_FRAME_LEN (R3). -/
@[simp] abbrev Config.maxFrameLen : Nat := 8

/-- FRAMELEN_READ: `none` is the spec's `unknown` (R4, decision D4; log entry 10). -/
@[simp] abbrev Config.frameLenRead : Option Nat := none
/-- FRAMELEN_WRITE, as FRAMELEN_READ. -/
@[simp] abbrev Config.frameLenWrite : Option Nat := none
/-- FRAMELEN_SEROUT, as FRAMELEN_READ. -/
@[simp] abbrev Config.frameLenSerout : Option Nat := none

/-! ## Derived constants (R3) -/

/-- TRACK_SIZE. -/
def Config.trackSize : Nat := Config.sectorsPerTrack * Config.sectorSize
/-- MAX_OFFSET, the largest byte offset a 16-bit track and a 16-bit sector form. -/
def Config.maxOffset : Nat := 0x207FDF80
/-- MAX_CHECKSUM, the largest sum of 128 bytes. -/
def Config.maxChecksum : Nat := 0x7F80

/-- What a byte reads as that no image and no write has reached: "zero-initialized" (10_state.md R12). -/
@[simp] abbrev Config.unlistedByte : Byte := 0

/-! ## Free values: constants with no body, so that nothing can be proved about their values.
Each is applied to the number of the draw (`State.draws`). -/

/-- The byte at offset `o` of a disk that the draw `k` left unspecified: a gap byte (20_memory.md R41) or a byte of the
window of a short write (42_disk_commands.md R91). Log entries 7 and 8. -/
opaque Config.freeDiskByte (k o : Nat) : Byte

/-- The byte `i` of SCRATCH after a ShortRead (42_disk_commands.md R89). Log entry 9. -/
opaque Config.freeScratchByte (k i : Nat) : Byte

/-- The count the disk store reports for a write when STORE_WRITE_MAY_FAIL is true (20_memory.md R41). Log entry 8. -/
opaque Config.freeWriteCount (k : Nat) : Nat

/-- The length of a disk after a ShortWrite (42_disk_commands.md R91). Log entry 8. -/
opaque Config.freeDiskLength (k : Nat) : Nat

end Sys2Proof
end

