-- ==== Sys2Proof/Syntax.lean ====
section
/-! DEFINITION. The commands of the block, one constructor per row of spec/opcode_table.json. -/

namespace Sys2Proof

/-- A command with its operands in the source's handler order "(disk, sector, track, address)" (30_encoding.md R55). -/
inductive Instr where
  /-- READ, code 1, format U: no frame length, layout or handler in any source (42_disk_commands.md R95). -/
  | read
  /-- WRITE, code 2, format U (R96). -/
  | write
  /-- CONST, code 3, format K (41_console_commands.md R80). -/
  | const
  /-- CONIN, code 4, format K (R81). -/
  | conin
  /-- SEROUT, code 5, format U (R83). -/
  | serout
  /-- READSUM, code 6, format S (42_disk_commands.md R92). -/
  | readsum (d : Byte) (sector track : U16)
  /-- WRITESUM, code 7, format S (R94). -/
  | writesum (d : Byte) (sector track : U16)
  /-- READDMA, code 9, format D (R88). -/
  | readdma (d : Byte) (sector track address : U16)
  /-- WRITEDMA, code 10, format D (R90). -/
  | writedma (d : Byte) (sector track address : U16)
deriving DecidableEq, Repr

end Sys2Proof
end

