-- ==== Sys2Proof/Decode.lean ====
section
/-! DEFINITION. Frames: from bytes to commands (30_encoding.md R50 to R58) and back, and the words of the opcode table. -/

namespace Sys2Proof

/-! ## Byte order: little-endian pairs (R55, 20_memory.md R36) -/

/-- `hi ‖ lo = 256 × hi + lo`; the byte that arrives first is the low byte. -/
def joinBytes (lo hi : Byte) : U16 := BitVec.ofNat 16 (256 * hi.toNat + lo.toNat)

/-- `v[7:0]`. -/
def lowByte (v : U16) : Byte := BitVec.ofNat 8 v.toNat

/-- `v[15:8]`. -/
def highByte (v : U16) : Byte := BitVec.ofNat 8 (v.toNat / 256)

/-! ## The code map (R52, R56) -/

/-- Byte `i` of a frame. A byte that has not arrived is given as 0; the decoder reads operands of whole frames only. -/
def frameByte (f : List Byte) (i : Nat) : Byte := f.getD i 0

/-- Operand `d` (R55). -/
def operandDisk (f : List Byte) : Byte := frameByte f 1
/-- Operand `sector` (R55): it comes before the track (R51). -/
def operandSector (f : List Byte) : U16 := joinBytes (frameByte f 2) (frameByte f 3)
/-- Operand `track` (R55). -/
def operandTrack (f : List Byte) : U16 := joinBytes (frameByte f 4) (frameByte f 5)
/-- Operand `address` (R55). -/
def operandAddress (f : List Byte) : U16 := joinBytes (frameByte f 6) (frameByte f 7)

/-- The command that byte 0 names, with operands assembled from `f`; `none` for an unrecognised code (R56 class 3). -/
def commandOf (code : Byte) (f : List Byte) : Option Instr :=
  if code = Config.cmdRead then some .read
  else if code = Config.cmdWrite then some .write
  else if code = Config.cmdConst then some .const
  else if code = Config.cmdConin then some .conin
  else if code = Config.cmdSerout then some .serout
  else if code = Config.cmdReadsum then some (.readsum (operandDisk f) (operandSector f) (operandTrack f))
  else if code = Config.cmdWritesum then some (.writesum (operandDisk f) (operandSector f) (operandTrack f))
  else if code = Config.cmdReaddma then
    some (.readdma (operandDisk f) (operandSector f) (operandTrack f) (operandAddress f))
  else if code = Config.cmdWritedma then
    some (.writedma (operandDisk f) (operandSector f) (operandTrack f) (operandAddress f))
  else none

/-- The length of a command's frame; `none` where no source gives it (R52). -/
def Instr.frameLength : Instr → Option Nat
  | .read => Config.frameLenRead
  | .write => Config.frameLenWrite
  | .const => some Config.frameLenK
  | .conin => some Config.frameLenK
  | .serout => Config.frameLenSerout
  | .readsum _ _ _ => some Config.frameLenS
  | .writesum _ _ _ => some Config.frameLenS
  | .readdma _ _ _ _ => some Config.frameLenD
  | .writedma _ _ _ _ => some Config.frameLenD

/-- The range of the spec's `FrameLen` (R52). -/
inductive FrameLen where
  | length (n : Nat)
  | unspecified
  | unrecognised
deriving DecidableEq, Repr

/-- `FrameLen : u8 -> {1, 6, 8} ∪ {unspecified, unrecognised}` (R52): a function of byte 0 alone (R53). -/
def frameLen (code : Byte) : FrameLen :=
  match commandOf code [] with
  | none => .unrecognised
  | some i =>
    match i.frameLength with
    | none => .unspecified
    | some n => .length n

/-! ## The decoder -/

/-- What the decoder reads from the bytes of the command buffer. -/
inductive Decoded where
  /-- The frame's last byte has not arrived. -/
  | incomplete
  /-- Byte 0 is no command code (R57). -/
  | unrecognised (code : Byte)
  /-- Byte 0 names `i`, whose frame length no source gives (R56 class 2). -/
  | unspecified (i : Instr)
  /-- The first `length` bytes are the frame of `i`. -/
  | complete (i : Instr) (length : Nat)
deriving DecidableEq, Repr

/-- Total on any bytes. Byte 0 alone decides the length; a parameter byte is never looked at for it (R53). -/
def decode : List Byte → Decoded
  | [] => .incomplete
  | code :: params =>
    match commandOf code (code :: params) with
    | none => .unrecognised code
    | some i =>
      match i.frameLength with
      | none => .unspecified i
      | some n => if n ≤ (code :: params).length then .complete i n else .incomplete

/-! ## The encoder (R51, R62) -/

/-- The parameter bytes of format S. -/
def encodeSector (d : Byte) (sector track : U16) : List Byte :=
  [d, lowByte sector, highByte sector, lowByte track, highByte track]

/-- The frame of a command. Of READ, WRITE and SEROUT only byte 0 is known (format U). -/
def encode : Instr → List Byte
  | .read => [Config.cmdRead]
  | .write => [Config.cmdWrite]
  | .const => [Config.cmdConst]
  | .conin => [Config.cmdConin]
  | .serout => [Config.cmdSerout]
  | .readsum d sector track => Config.cmdReadsum :: encodeSector d sector track
  | .writesum d sector track => Config.cmdWritesum :: encodeSector d sector track
  | .readdma d sector track address =>
    Config.cmdReaddma :: encodeSector d sector track ++ [lowByte address, highByte address]
  | .writedma d sector track address =>
    Config.cmdWritedma :: encodeSector d sector track ++ [lowByte address, highByte address]

/-! ## The words of spec/opcode_table.json -/

/-- The bytes of a table word in order of arrival: bits 7..0 are byte 0, bits 15..8 byte 1, and so on; every bit above
`nbits` is 0, up to the longest frame. -/
def tableBytes (nbits w : Nat) : List Byte :=
  (List.range Config.maxFrameLen).map fun k => BitVec.ofNat 8 (w % 2 ^ nbits / 2 ^ (8 * k))

/-- The command the decoder reads from a table word. -/
def decodeTableWord (nbits w : Nat) : Option Instr :=
  match decode (tableBytes nbits w) with
  | .incomplete => none
  | .unrecognised _ => none
  | .unspecified i => some i
  | .complete i _ => some i

/-- The bytes of a table word that are delivered to the command port: the frame; byte 0 alone where no longer
frame is known. -/
def tableFrame (nbits w : Nat) : List Byte :=
  match decode (tableBytes nbits w) with
  | .incomplete => tableBytes nbits w
  | .unrecognised code => [code]
  | .unspecified _ => (tableBytes nbits w).take 1
  | .complete _ n => (tableBytes nbits w).take n

end Sys2Proof
end

