-- ==== Sys2Proof/Machine/State.lean ====
section
/-! DEFINITION. The state of the block (10_state.md), its reset, and the reasons a step can stop. Plain data. -/

namespace Sys2Proof.Machine

/-! ## Transactions (00_scope.md R6, 43_port_interface.md R100) -/

/-- A transaction an outside agent starts. Addresses are any natural number and are reduced by the block; a value is a
byte (R100, decision D13). -/
inductive Transaction where
  | readPort (address : Nat)
  | writePort (address : Nat) (value : Byte)
  | readMemory (address : Nat)
  | writeMemory (address : Nat) (value : Byte)
  | keyPush (b : Byte)
deriving DecidableEq, Repr

/-- A byte the block has returned to the bus master: the result of a `readPort` with its masked port, or of a
`readMemory` with its reduced address. -/
inductive BusRead where
  | port (pa : Byte) (b : Byte)
  | memory (address : Nat) (b : Byte)
deriving DecidableEq, Repr

/-! ## Faults and diagnostics (60_exceptions.md) -/

/-- The causes the HALT latch holds, with the information recorded (R121). -/
inductive FaultCause where
  /-- Code 1: an unrecognised code as byte 0 of a frame. -/
  | unknownCommand (code : Byte)
  /-- Code 2: a write to a port that is neither 0x00 nor 0x80. -/
  | unmappedPortWrite (pa value : Byte)
  /-- Code 3: the store returned `n` < 128 bytes. -/
  | shortRead (d : Byte) (off n : Nat)
  /-- Code 4: the store wrote `n` ≠ 128 bytes. -/
  | shortWrite (d : Byte) (off n : Nat)
  /-- Code 5: no disk with this index is attached. -/
  | diskIndexInvalid (d : Byte)
deriving DecidableEq, Repr

/-- An event of LOG (10_state.md R20): the one warning (60_exceptions.md R125), or a fault (R126). -/
inductive LogEvent where
  | unmappedPortRead (pa : Byte)
  | fatal (cause : FaultCause)
deriving DecidableEq, Repr

/-- Why the machine stops with a fault. -/
inductive Fault where
  /-- Raised by `step` on a state whose HALT latch is set: no transaction is accepted (60_exceptions.md R127). Safe: a
  halted block has no next state. The transaction that SET the latch is a next state (log entry 1). -/
  | halted (cause : FaultCause)
deriving DecidableEq, Repr

/-- Why the model gives a command no meaning (60_exceptions.md R128). -/
inductive Refusal where
  /-- Raised by `exec`'s arm of a command that has no meaning yet (none is left). Safe. -/
  | notModelled (mnemonic : String)
  /-- Raised by READ, WRITE and SEROUT: byte 0 is 0x01, 0x02 or 0x05 (R128, 40_command_framer.md R73). Safe. -/
  | unspecifiedCommand (code : Byte)
  /-- Raised by WRITESUM after its 6-byte frame is spliced out (R128, 42_disk_commands.md R94). Safe. -/
  | unspecifiedHandler (code : Byte)
deriving DecidableEq, Repr

/-! ## Memory and disks -/

/-- MEM (10_state.md R12): the listed bytes; an address not listed reads as `Config.unlistedByte`. -/
abbrev Memory := List Host.Cell

/-- An interval `lo ≤ o < hi` of a disk whose bytes are the free values of one draw (20_memory.md R41). -/
structure Hole where
  lo : Nat
  hi : Nat
  draw : Nat
deriving DecidableEq, Repr

/-- DISK[d] (10_state.md R16): a finite byte sequence, held as its length, the intervals of free bytes, and the listed bytes
of the rest (a byte in no interval and not listed is 0). -/
structure Disk where
  len : Nat
  holes : List Hole
  cells : List Host.Cell
deriving DecidableEq, Repr

/-! ## The state -/

/-- The storage elements of 10_state.md section 2, one parameter of the run, and the model's own three fields. -/
structure State where
  /-- MEM (R12). -/
  mem : Memory
  /-- RQ, the response queue, front first (R13). -/
  rq : List Byte
  /-- KQ, the key queue, front first (R14). -/
  kq : List Byte
  /-- CB, the command buffer, byte 0 first (R15). -/
  cb : List Byte
  /-- DISK[0 .. NDISKS-1] (R16). -/
  disks : List Disk
  /-- SCRATCH, 128 bytes (R17). -/
  scratch : List Byte
  /-- HALT (R18). -/
  halt : Option FaultCause
  /-- CONSOLE, oldest first (R19). -/
  console : List Byte
  /-- LOG, oldest first (R20). -/
  log : List LogEvent
  /-- STORE_WRITE_MAY_FAIL (00_scope.md R4): fixed for the run. -/
  storeWriteMayFail : Bool
  /-- The model's own: the transactions still to come, next first (log entry 2). -/
  pending : List Transaction
  /-- The model's own: the bytes returned so far, oldest first (00_scope.md R9; log entry 3). -/
  returned : List BusRead
  /-- The model's own: how many free values have been drawn (log entry 7). -/
  draws : Nat
deriving DecidableEq, Repr

/-- Reset with its parameters (70_reset_and_hazards.md R140, 10_state.md section 5). SCRATCH is unspecified in the spec;
the model names zeros (log entry 6). -/
def State.resetWith (memInit : Memory) (diskInit : List Disk) (storeWriteMayFail : Bool) : State where
  mem := memInit
  rq := []
  kq := []
  cb := []
  disks := diskInit
  scratch := List.replicate Config.sectorSize 0
  halt := none
  console := []
  log := []
  storeWriteMayFail := storeWriteMayFail
  pending := []
  returned := []
  draws := 0

/-- Reset with no memory image, no disk, and the spec's default of STORE_WRITE_MAY_FAIL (log entry 4). -/
def State.reset : State := State.resetWith [] [] false

end Sys2Proof.Machine
end

