-- ==== Sys2Proof/Machine/Flags.lean ====
section
/-! DEFINITION. The block has no flags (10_state.md R22): status reaches the guest only as bytes of the response queue. Here are
the status bytes, the checksum, and the responses of 30_encoding.md R59. -/

namespace Sys2Proof.Machine

/-- The sum of the bytes, each an unsigned value 0..255, exactly. -/
def byteSum (bs : List Byte) : Nat := (bs.map BitVec.toNat).sum

/-- The 16-bit checksum: the sum mod 2^16 (42_disk_commands.md R93). -/
def checksum (bs : List Byte) : U16 := BitVec.ofNat 16 (byteSum bs)

/-- CONST's answer for the key queue `kq` (41_console_commands.md R80). -/
def constResponse : List Byte → List Byte
  | [] => [Config.notReady]
  | _ :: _ => [Config.ready]

/-- CONIN's answer for the key queue `kq` (R81). -/
def coninResponse : List Byte → List Byte
  | [] => [Config.notReady]
  | k :: _ => [Config.ready, k]

/-- READDMA's answer: three zero fillers, then SUCCESS (42_disk_commands.md R88). -/
def readdmaResponse : List Byte := [0x00, 0x00, 0x00, Config.success]

/-- WRITEDMA's answer (R90). -/
def writedmaResponse : List Byte := [Config.success]

/-- READSUM's answer for a sector: SUCCESS, the sector, the checksum low byte first (R92). -/
def readsumResponse (sector : List Byte) : List Byte :=
  Config.success :: sector ++ [lowByte (checksum sector), highByte (checksum sector)]

end Sys2Proof.Machine
end

