-- ==== Sys2Proof/Machine/Memory.lean ====
section
/-! DEFINITION. Lists of (address, byte) in canonical form, and the accesses to MEM (20_memory.md R30 to R33). -/

namespace Sys2Proof.Machine

/-! ## Listed bytes -/

/-- The byte at `a`. -/
def Cells.get : List Host.Cell → Nat → Byte
  | [], _ => Config.unlistedByte
  | (k, b) :: cs, a => if k = a then b else Cells.get cs a

/-- Put `(a, b)` in its place in a list that has no entry for `a`. -/
def Cells.insert (a : Nat) (b : Byte) : List Host.Cell → List Host.Cell
  | [] => [(a, b)]
  | c :: cs => if a < c.1 then (a, b) :: c :: cs else c :: Cells.insert a b cs

/-- Make the byte at `a` be `b`: writing what an unlisted address reads as removes the entry. -/
def Cells.set (cs : List Host.Cell) (a : Nat) (b : Byte) : List Host.Cell :=
  if b = Config.unlistedByte then cs.filter (fun c => decide (c.1 ≠ a))
  else Cells.insert a b (cs.filter (fun c => decide (c.1 ≠ a)))

/-- The bytes `bs` at `a`, `a + 1`, and so on. -/
def Cells.setRange (cs : List Host.Cell) (a : Nat) : List Byte → List Host.Cell
  | [] => cs
  | b :: bs => Cells.setRange (Cells.set cs a b) (a + 1) bs

/-- The canonical form: addresses strictly rising, no entry equal to what an unlisted address reads as. -/
abbrev Cells.wf (cs : List Host.Cell) : Prop :=
  cs.Pairwise (fun c c' => c.1 < c'.1) ∧ ∀ c ∈ cs, c.2 ≠ Config.unlistedByte

/-! ## MEM -/

/-- `address mod 65536` (R32). -/
def Memory.reduce (address : Nat) : Nat := address % Config.memSize

/-- `MEM[address mod 65536]` (R32). -/
def Memory.byte (m : Memory) (address : Nat) : Byte := Cells.get m (Memory.reduce address)

/-- `MEM[address mod 65536] <- b` (R32). -/
def Memory.setByte (m : Memory) (address : Nat) (b : Byte) : Memory := Cells.set m (Memory.reduce address) b

/-- `MemRead(address, n)`: byte `i` is at `(address + i) mod 65536` (R33). -/
def Memory.readRange (m : Memory) (address n : Nat) : List Byte :=
  (List.range n).map fun i => Memory.byte m (address + i)

/-- `MemWrite(address, n, v)`, in ascending `i`, wrapping at the top of memory (R33). -/
def Memory.writeRange (m : Memory) (address : Nat) : List Byte → Memory
  | [] => m
  | b :: bs => Memory.writeRange (Memory.setByte m address b) (address + 1) bs

/-- The canonical form of MEM, all addresses in the 64 KiB space. -/
abbrev Memory.wf (m : Memory) : Prop := Cells.wf m ∧ ∀ c ∈ m, c.1 < Config.memSize

end Sys2Proof.Machine
end

