-- ==== Sys2Proof/Machine/Store.lean ====
section
/-! DEFINITION. A disk as the controller sees it: reads, writes, growth and short writes (20_memory.md R40 to R42). -/

namespace Sys2Proof.Machine

/-! ## Intervals of free bytes -/

/-- The interval holds the offset `o`. -/
def Hole.covers (h : Hole) (o : Nat) : Bool := decide (h.lo ≤ o) && decide (o < h.hi)

/-- The part of the interval below `n`, if there is one. -/
def Hole.below (n : Nat) (h : Hole) : Option Hole :=
  if h.lo < n then some { h with hi := min h.hi n } else none

/-- The part of the interval from `n` on, if there is one. -/
def Hole.above (n : Nat) (h : Hole) : Option Hole :=
  if n < h.hi then some { h with lo := max h.lo n } else none

/-- The draw of the interval that holds `o`. -/
def Hole.drawAt (hs : List Hole) (o : Nat) : Option Nat :=
  (hs.find? (Hole.covers · o)).map Hole.draw

/-! ## Bytes of a disk -/

/-- `DISK[d][o]`: a free byte where an interval holds `o`, else the listed byte. -/
def Disk.byte (dk : Disk) (o : Nat) : Byte :=
  match Hole.drawAt dk.holes o with
  | some k => Config.freeDiskByte k o
  | none => Cells.get dk.cells o

/-- `StoreRead`: the bytes at `off ..< min(off + n, len)` (R40). -/
def Disk.read (dk : Disk) (off n : Nat) : List Byte :=
  (List.range (min n (dk.len - off))).map fun i => Disk.byte dk (off + i)

/-- The bytes at `off ..< off + bs.length` become `bs`; the disk reaches at least to their end. -/
def Disk.writeAt (dk : Disk) (off : Nat) (bs : List Byte) : Disk where
  len := max dk.len (off + bs.length)
  holes := dk.holes.filterMap (Hole.below off) ++ dk.holes.filterMap (Hole.above (off + bs.length))
  cells := Cells.setRange dk.cells off bs

/-- The bytes at `lo ..< hi` become the free values of the draw `k`; the disk reaches at least to `hi`. -/
def Disk.punch (dk : Disk) (k lo hi : Nat) : Disk where
  len := max dk.len hi
  holes := dk.holes.filterMap (Hole.below lo) ++ ⟨lo, hi, k⟩ :: dk.holes.filterMap (Hole.above hi)
  cells := dk.cells.filter (fun c => decide (c.1 < lo) || decide (hi ≤ c.1))

/-- The disk cut off at `n`. -/
def Disk.truncate (dk : Disk) (n : Nat) : Disk where
  len := n
  holes := dk.holes.filterMap (Hole.below n)
  cells := dk.cells.filter (fun c => decide (c.1 < n))

/-- A full `StoreWrite` (R41): a gap between the old end and `off` takes the free values of the draw `k`. -/
def Disk.write (dk : Disk) (k off : Nat) (bs : List Byte) : Disk :=
  Disk.writeAt (if dk.len < off then Disk.punch dk k dk.len off else dk) off bs

/-- The shortest length that loses no byte outside the window `off ..< off + n`. -/
def Disk.keptLength (dk : Disk) (off n : Nat) : Nat :=
  if off + n < dk.len then dk.len else min dk.len off

/-- A `StoreWrite` of `n` bytes that fell short (42_disk_commands.md R91): the window and the length are free values; no byte
that stood outside the window is lost or changed (60_exceptions.md R126). Log entry 8. -/
def Disk.writeShort (dk : Disk) (k off n : Nat) : Disk :=
  let dk' := Disk.punch dk k (min dk.len off) (off + n)
  let len' := max (Disk.keptLength dk off n) (Config.freeDiskLength k)
  if len' ≤ dk'.len then Disk.truncate dk' len' else Disk.punch dk' k dk'.len len'

/-- A disk from its bytes: how a DISK_INIT[d] is written down. -/
def Disk.ofBytes (bs : List Byte) : Disk := Disk.writeAt ⟨0, [], []⟩ 0 bs

/-- The canonical form: intervals non-empty, ascending and inside the disk; listed bytes in canonical form, inside the disk and
in no interval. -/
abbrev Disk.wf (dk : Disk) : Prop :=
  Cells.wf dk.cells ∧ (∀ c ∈ dk.cells, c.1 < dk.len) ∧ (∀ c ∈ dk.cells, ∀ h ∈ dk.holes, ¬ (h.lo ≤ c.1 ∧ c.1 < h.hi)) ∧
    dk.holes.Pairwise (fun h h' => h.hi ≤ h'.lo) ∧ ∀ h ∈ dk.holes, h.lo < h.hi ∧ h.hi ≤ dk.len

end Sys2Proof.Machine
end

