-- ==== Sys2Proof/Machine/Operands.lean ====
section
/-! DEFINITION. How a command's operands name things: the sector's offset, the disk, the port. -/

namespace Sys2Proof.Machine

/-- `Offset(track, sector) = (track × 64 + sector) × 128`, on natural numbers (20_memory.md R38). The sector is not range-checked
(R39). -/
def sectorOffset (track sector : U16) : Nat :=
  (track.toNat * Config.sectorsPerTrack + sector.toNat) * Config.sectorSize

/-- The disk `d`; `none` when `d ≥ NDISKS` (20_memory.md R35). -/
def State.disk? (s : State) (d : Byte) : Option Disk := s.disks[d.toNat]?

/-- `pa = address mod 256` (20_memory.md R34). -/
def portOf (address : Nat) : Byte := BitVec.ofNat 8 (address % Config.portCount)

end Sys2Proof.Machine
end

