-- ==== Sys2Proof/Machine/Ops.lean ====
section
/-! DEFINITION. The named operations over the state, taking a fault among them, and the steps the disk commands share. -/

namespace Sys2Proof.Machine

/-! ## Queues, traces and buffers -/

/-- `push(RQ, bs)` (10_state.md R13). -/
def State.respond (s : State) (bs : List Byte) : State := { s with rq := s.rq ++ bs }

/-- The result of a read transaction, returned to the bus master (00_scope.md R9). -/
def State.answer (s : State) (r : BusRead) : State := { s with returned := s.returned ++ [r] }

/-- `emit(b)` (43_port_interface.md R106). -/
def State.emit (s : State) (b : Byte) : State := { s with console := s.console ++ [b] }

/-- `KQ <- KQ ++ [b]` (43_port_interface.md R108). -/
def State.pushKey (s : State) (b : Byte) : State := { s with kq := s.kq ++ [b] }

/-- `CB <- CB ++ [v]` (40_command_framer.md R71). -/
def State.appendCommand (s : State) (v : Byte) : State := { s with cb := s.cb ++ [v] }

/-- `CB <- drop(L, CB)` (40_command_framer.md R75). -/
def State.splice (s : State) (n : Nat) : State := { s with cb := s.cb.drop n }

/-- `SCRATCH <- bs` (10_state.md R17). -/
def State.fillScratch (s : State) (bs : List Byte) : State := { s with scratch := bs }

/-- SCRATCH becomes unspecified: 128 free bytes (42_disk_commands.md R89). Log entry 9. -/
def State.loseScratch (s : State) : State :=
  { s with
    scratch := (List.range Config.sectorSize).map (Config.freeScratchByte s.draws)
    draws := s.draws + 1 }

/-- `MemWrite(address, 128, SCRATCH)` (42_disk_commands.md R88). -/
def State.scratchToMemory (s : State) (address : U16) : State :=
  { s with mem := Memory.writeRange s.mem address.toNat s.scratch }

/-- `SCRATCH <- MemRead(address, 128)` (42_disk_commands.md R90). -/
def State.memoryToScratch (s : State) (address : U16) : State :=
  s.fillScratch (Memory.readRange s.mem address.toNat Config.sectorSize)

/-! ## Warnings and faults (60_exceptions.md) -/

/-- `warn UnmappedPortRead(pa)` (R125). -/
def State.warn (s : State) (pa : Byte) : State := { s with log := s.log ++ [.unmappedPortRead pa] }

/-- `raise F(info)` (R126): the latch holds the cause, the event is logged, nothing else changes. There is no return from a fault
(R129): only reset clears the latch. The faulting transaction's outcome is this next state (log entry 1). -/
def State.raise (s : State) (cause : FaultCause) : State :=
  { s with halt := some cause, log := s.log ++ [.fatal cause] }

/-- The ordinal of a cause (R121); nothing in the block reads it (decision D3). -/
def FaultCause.ordinal : FaultCause → Nat
  | .unknownCommand _ => 1
  | .unmappedPortWrite _ _ => 2
  | .shortRead _ _ _ => 3
  | .shortWrite _ _ _ => 4
  | .diskIndexInvalid _ => 5

/-! ## The disk store inside a transaction -/

/-- How many of `n` bytes the store writes: all, unless STORE_WRITE_MAY_FAIL lets it write fewer (20_memory.md R41). -/
def State.storeCount (s : State) (n : Nat) : Nat :=
  if s.storeWriteMayFail then min n (Config.freeWriteCount s.draws) else n

/-- `StoreWrite(d, off, bs)` on the attached disk `dk`, whose index is `k` (R41, 42_disk_commands.md R91). The count is
`s.storeCount bs.length`. -/
def State.storeWrite (s : State) (k : Nat) (dk : Disk) (off : Nat) (bs : List Byte) : State :=
  { s with
    disks := s.disks.set k
      (if s.storeCount bs.length = bs.length then Disk.write dk s.draws off bs
       else Disk.writeShort dk s.draws off bs.length)
    draws := s.draws + 1 }

/-- `StoreSync(d)`: no state of the model changes (20_memory.md R42, decision D22). -/
def State.storeSync (s : State) (_d : Byte) : State := s

/-- What READDMA and READSUM do first (42_disk_commands.md R86, R87, R89): `ok` with the sector in SCRATCH, or `error` with the
fault taken. The disk index is checked before the store is touched (60_exceptions.md R123). -/
def loadSector (d : Byte) (sector track : U16) (s : State) : Except State State :=
  match s.disk? d with
  | none => .error (s.raise (.diskIndexInvalid d))
  | some dk =>
    let off := sectorOffset track sector
    let buf := Disk.read dk off Config.sectorSize
    if buf.length = Config.sectorSize then .ok (s.fillScratch buf)
    else .error (s.loseScratch.raise (.shortRead d off buf.length))

/-! ## Re-creation -/

/-- A new block over the same disk backing (70_reset_and_hazards.md R142): the disks are what the old run left, all else is reset.
The draw counter goes on, so that later free values are fresh. -/
def State.recreate (s : State) (memInit : Memory) (storeWriteMayFail : Bool) : State :=
  { State.resetWith memInit s.disks storeWriteMayFail with draws := s.draws }

end Sys2Proof.Machine
end

