-- ==== Sys2Proof/Machine/Console.lean ====
section
/-! DEFINITION. The console commands CONST, CONIN, SEROUT (41_console_commands.md). -/

namespace Sys2Proof.Machine

/-- CONST (R80): "if KeyQueue is non-empty, push Ready into ResponseQueue; else push NotReady. Does not consume a key." -/
def execConst (s : State) : Host.Outcome State Fault Refusal :=
  .next (s.respond (constResponse s.kq))

/-- CONIN (R81): pop the oldest key and answer it, or answer NOT_READY. -/
def execConin (s : State) : Host.Outcome State Fault Refusal :=
  .next { s.respond (coninResponse s.kq) with kq := s.kq.tail }

/-- SEROUT (R83, 40_command_framer.md R73): in no source but by name; refused. -/
def execSerout (_s : State) : Host.Outcome State Fault Refusal :=
  .refused (.unspecifiedCommand Config.cmdSerout)

end Sys2Proof.Machine
end

