-- ==== Sys2Proof/Machine/DiskCommands.lean ====
section
/-! DEFINITION. The disk commands READDMA, WRITEDMA, READSUM, WRITESUM, READ, WRITE (42_disk_commands.md). -/

namespace Sys2Proof.Machine

/-- READDMA (R88): the sector through SCRATCH into MEM, then three zero fillers and SUCCESS. -/
def execReaddma (d : Byte) (sector track address : U16) (s : State) : Host.Outcome State Fault Refusal :=
  match loadSector d sector track s with
  | .error halted => .next halted
  | .ok loaded => .next ((loaded.scratchToMemory address).respond readdmaResponse)

/-- WRITEDMA (R90, R91): 128 bytes of MEM through SCRATCH to the store, which must write all of them; then sync, then SUCCESS. -/
def execWritedma (d : Byte) (sector track address : U16) (s : State) : Host.Outcome State Fault Refusal :=
  match s.disk? d with
  | none => .next (s.raise (.diskIndexInvalid d))
  | some dk =>
    let off := sectorOffset track sector
    let staged := s.memoryToScratch address
    let n := staged.storeCount staged.scratch.length
    let written := staged.storeWrite d.toNat dk off staged.scratch
    if n = Config.sectorSize then .next ((written.storeSync d).respond writedmaResponse)
    else .next (written.raise (.shortWrite d off n))

/-- READSUM (R92): the sector through SCRATCH to the response queue, with its checksum; MEM is not touched. -/
def execReadsum (d : Byte) (sector track : U16) (s : State) : Host.Outcome State Fault Refusal :=
  match loadSector d sector track s with
  | .error halted => .next halted
  | .ok loaded => .next (loaded.respond (readsumResponse loaded.scratch))

/-- WRITESUM (R94): framed like any format-S command, its effect in no source; refused. -/
def execWritesum (_d : Byte) (_sector _track : U16) (_s : State) : Host.Outcome State Fault Refusal :=
  .refused (.unspecifiedHandler Config.cmdWritesum)

/-- READ (R95, 40_command_framer.md R73): in no source but by name; refused. -/
def execRead (_s : State) : Host.Outcome State Fault Refusal :=
  .refused (.unspecifiedCommand Config.cmdRead)

/-- WRITE (R96, 40_command_framer.md R73): in no source but by name; refused. -/
def execWrite (_s : State) : Host.Outcome State Fault Refusal :=
  .refused (.unspecifiedCommand Config.cmdWrite)

end Sys2Proof.Machine
end

