-- ==== Sys2Proof/Machine/Dispatch.lean ====
section
/-! DEFINITION. One arm per command (40_command_framer.md R76): the handler it runs. -/

namespace Sys2Proof.Machine

def exec (i : Instr) (s : State) : Host.Outcome State Fault Refusal :=
  match i with
  | .read => Sys2Proof.Machine.execRead s
  | .write => Sys2Proof.Machine.execWrite s
  | .const => Sys2Proof.Machine.execConst s
  | .conin => Sys2Proof.Machine.execConin s
  | .serout => Sys2Proof.Machine.execSerout s
  | .readsum d sector track => Sys2Proof.Machine.execReadsum d sector track s
  | .writesum d sector track => Sys2Proof.Machine.execWritesum d sector track s
  | .readdma d sector track address => Sys2Proof.Machine.execReaddma d sector track address s
  | .writedma d sector track address => Sys2Proof.Machine.execWritedma d sector track address s

end Sys2Proof.Machine
end

