-- ==== Sys2Proof/Machine/Framer.lean ====
section
/-! DEFINITION. The command framer (40_command_framer.md), and how a frame is placed so that the next step completes it. -/

namespace Sys2Proof.Machine

/-- `CmdWrite(v)` (R70): append (R71), classify byte 0 (R72, R73), test for completion (R74), splice (R75), dispatch (R76). The
test is `len(CB) = L` (R74, decision D14). -/
def cmdWrite (v : Byte) (s : State) : Host.Outcome State Fault Refusal :=
  let appended := s.appendCommand v
  match decode appended.cb with
  | .unrecognised code => .next (appended.raise (.unknownCommand code))
  | .unspecified i => exec i appended
  | .incomplete => .next appended
  | .complete i n => if appended.cb.length = n then exec i (appended.splice n) else .next appended

/-- All but the last byte of the frame `f` in CB, and the write of its last byte the next transaction. -/
def placeFrame (f : List Byte) (s : State) : State :=
  { s with
    cb := f.dropLast
    pending := (f.getLast?.map (Transaction.writePort Config.cmdPort.toNat)).toList ++ s.pending }

end Sys2Proof.Machine
end

