-- ==== Sys2Proof/Machine/Bus.lean ====
section
/-! DEFINITION. The five transactions (43_port_interface.md R100 to R108), and the block's one step. -/

namespace Sys2Proof.Machine

/-- `readPort` of the command port (R101): pop the response queue; an empty queue answers 0x00, silently. -/
def popResponse (s : State) : State :=
  match s.rq with
  | [] => s.answer (.port Config.cmdPort 0x00)
  | b :: rest => { s with rq := rest }.answer (.port Config.cmdPort b)

/-- `readPort(address)` (R101, R102). -/
def readPort (address : Nat) (s : State) : State :=
  if portOf address = Config.cmdPort then popResponse s
  else (s.warn (portOf address)).answer (.port (portOf address) 0x00)

/-- `writePort(address, value)`: the address is routed first (R105, R106, R107, 60_exceptions.md R123). -/
def writePort (address : Nat) (value : Byte) (s : State) : Host.Outcome State Fault Refusal :=
  if portOf address = Config.consolePort then .next (s.emit value)
  else if portOf address = Config.cmdPort then cmdWrite value s
  else .next (s.raise (.unmappedPortWrite (portOf address) value))

/-- `readMemory(address)` (R103). -/
def readMemory (address : Nat) (s : State) : State :=
  s.answer (.memory (Memory.reduce address) (Memory.byte s.mem address))

/-- `writeMemory(address, value)` (R104). -/
def writeMemory (address : Nat) (value : Byte) (s : State) : State :=
  { s with mem := Memory.setByte s.mem address value }

/-- A transaction on a block that is not halted (00_scope.md R7, R8). -/
def transact (t : Transaction) (s : State) : Host.Outcome State Fault Refusal :=
  match t with
  | .readPort address => .next (readPort address s)
  | .writePort address value => writePort address value s
  | .readMemory address => .next (readMemory address s)
  | .writeMemory address value => .next (writeMemory address value s)
  | .keyPush b => .next (s.pushKey b)

/-- One step: a halted block accepts nothing (60_exceptions.md R127); with no transaction to come nothing happens
(00_scope.md R5; log entry 2); else the next transaction runs to its end. -/
def runNext (s : State) : Host.Outcome State Fault Refusal :=
  match s.halt with
  | some cause => .fault (.halted cause)
  | none =>
    match s.pending with
    | [] => .next s
    | t :: rest => transact t { s with pending := rest }

end Sys2Proof.Machine
end

