-- ==== Sys2Proof/Machine/Step.lean ====
section
/-! DEFINITION. The step, and the placing of a table word where the next step runs it. -/

namespace Sys2Proof.Machine

/-- One transaction of the block. -/
def step (s : State) : Host.Outcome State Fault Refusal := runNext s

/-- `s` with all but the last byte of the word's frame already in CB and the write of the last byte as the next transaction, so that
the next step completes the frame and runs the command (log entry 18). -/
def State.withFetchWord (s : State) (nbits w : Nat) : State := placeFrame (tableFrame nbits w) s

end Sys2Proof.Machine
end

