-- ==== Sys2Proof/Safety.lean ====
section
/-! DEFINITION. The terms claims are stated in: runs, what a step does to each queue, the invariant, the observation. -/

namespace Sys2Proof.Machine

/-! ## Runs -/

/-- A run of steps, each taken from a state that meets `P`. A run that ends in a halted state has faulted (60_exceptions.md
R127): a claim about a program takes `halt = none` at the end as a premise. -/
inductive Run (P : State → Prop) : State → State → Prop where
  | here (s : State) : Run P s s
  | step {s t u : State} : P s → Machine.step s = .next t → Run P t u → Run P s u

/-! ## What the next step is -/

/-- The transaction the next step accepts: none when the block is halted or none is to come. -/
def State.next? (s : State) : Option Transaction :=
  match s.halt with
  | some _ => none
  | none => s.pending.head?

/-- The command the next step completes and runs: the write of the last byte of its frame (40_command_framer.md R74). -/
def State.command? (s : State) : Option Instr :=
  match s.next? with
  | some (.writePort address v) =>
    if portOf address = Config.cmdPort then
      match decode (s.cb ++ [v]) with
      | .complete i n => if (s.cb ++ [v]).length = n then some i else none
      | _ => none
    else none
  | _ => none

/-! ## The response queue (30_encoding.md R59, 43_port_interface.md R109) -/

/-- The sector `(track, sector)` of the disk `d`, where it is attached and reaches that far. -/
def State.sector? (s : State) (d : Byte) (sector track : U16) : Option (List Byte) :=
  (s.disk? d).bind fun dk =>
    if sectorOffset track sector + Config.sectorSize ≤ dk.len then
      some (Disk.read dk (sectorOffset track sector) Config.sectorSize)
    else none

/-- The table of R59: the bytes a command pushes; none where it faults or is refused. -/
def responseOf (i : Instr) (s : State) : List Byte :=
  match i with
  | .const => constResponse s.kq
  | .conin => coninResponse s.kq
  | .readsum d sector track => ((s.sector? d sector track).map readsumResponse).getD []
  | .readdma d sector track _ => ((s.sector? d sector track).map fun _ => readdmaResponse).getD []
  | .writedma d _ _ _ =>
    if (s.disk? d).isSome ∧ s.storeCount Config.sectorSize = Config.sectorSize then writedmaResponse else []
  | .read => []
  | .write => []
  | .serout => []
  | .writesum _ _ _ => []

/-- The bytes the next step pushes onto RQ. -/
def State.pushed (s : State) : List Byte :=
  match s.command? with
  | some i => responseOf i s
  | none => []

/-- The byte the next step pops from RQ: a non-underflowing read of the command port. -/
def State.popped (s : State) : List Byte :=
  match s.next? with
  | some (.readPort address) => if portOf address = Config.cmdPort then s.rq.take 1 else []
  | _ => []

/-- A run with the concatenation `pushes` of all responses pushed in it and the bytes `got` that its reads returned (R109). -/
inductive Traffic : State → List Byte → List Byte → State → Prop where
  | here (s : State) : Traffic s [] [] s
  | step {s t u : State} {pushes got : List Byte} : Machine.step s = .next t → Traffic t pushes got u →
      Traffic s (s.pushed ++ pushes) (s.popped ++ got) u

/-! ## The invariant -/

/-- Between transactions on a block that is not halted, CB is empty or an unfinished frame (10_state.md R24). -/
def framePending : List Byte → Bool
  | [] => true
  | code :: params =>
    match frameLen code with
    | .length n => decide (params.length + 1 < n)
    | .unspecified => false
    | .unrecognised => false

/-- The event is a fault's. -/
def LogEvent.isFatal : LogEvent → Bool
  | .unmappedPortRead _ => false
  | .fatal _ => true

/-- HALT and LOG agree (60_exceptions.md R122, R126): no fault is logged before the latch is set, and the one that set it is the
last event. -/
def State.faultsLogged (s : State) : Prop :=
  match s.halt with
  | none => ∀ e ∈ s.log, e.isFatal = false
  | some cause => ∃ before, s.log = before ++ [.fatal cause] ∧ ∀ e ∈ before, e.isFatal = false

/-- What every step keeps. -/
structure Inv (s : State) : Prop where
  /-- MEM is in canonical form. -/
  mem_wf : Memory.wf s.mem
  /-- Every disk is in canonical form. -/
  disks_wf : ∀ dk ∈ s.disks, Disk.wf dk
  /-- The free values of a disk come from draws already made. -/
  holes_drawn : ∀ dk ∈ s.disks, ∀ h ∈ dk.holes, h.draw < s.draws
  /-- SCRATCH is 128 bytes (10_state.md R17). -/
  scratch_length : s.scratch.length = Config.sectorSize
  /-- R24. -/
  frame_pending : s.halt = none → framePending s.cb = true
  /-- R122, R126. -/
  faults_logged : s.faultsLogged

/-! ## The observation (00_scope.md R9) -/

/-- The outcome with SCRATCH left out, which is not observable (10_state.md R17). -/
def withoutScratch : Host.Outcome State Fault Refusal → Host.Outcome State Fault Refusal
  | .next s => .next { s with scratch := [] }
  | .fault r => .fault r
  | .refused r => .refused r

/-! ## Overlapping writes -/

/-- The next step runs a WRITEDMA that reaches into the sector at the offset `off` of the disk `d`. -/
def State.overwrites (s : State) (d : Byte) (off : Nat) : Prop :=
  match s.command? with
  | some (.writedma d' sector track _) =>
    d' = d ∧ sectorOffset track sector < off + Config.sectorSize ∧ off < sectorOffset track sector + Config.sectorSize
  | _ => False

end Sys2Proof.Machine
end

