-- ==== Sys2Proof/WellFormed.lean ====
section
/-! DEFINITION. Which commands have a frame. "Every parameter byte may take every value 0..255; there are no reserved
bits and no illegal parameter encodings at the framing level" (30_encoding.md R58), so the operands need no check;
the one check is that the command's frame is known (R52, format U). -/

namespace Sys2Proof

/-- The spec gives the whole frame of `i`. READ, WRITE and SEROUT have one only if their FRAMELEN parameter
is known (00_scope.md R4), and it is not (decision D4). -/
def Instr.wellFormed : Instr → Bool
  | .read => Config.frameLenRead.isSome
  | .write => Config.frameLenWrite.isSome
  | .const => true
  | .conin => true
  | .serout => Config.frameLenSerout.isSome
  | .readsum _ _ _ => true
  | .writesum _ _ _ => true
  | .readdma _ _ _ _ => true
  | .writedma _ _ _ _ => true

end Sys2Proof
end

