-- ==== Sys2Proof/Certificates/Slice0/Obligations.lean ====
section
/-! DEFINITION. The statements for the provers. Each docstring names the rule of spec/ it formalises; where a clause rests on a
choice of the model, the log entry. -/

open Sys2Proof Sys2Proof.Machine

/-! ## Frames (30_encoding.md) -/

/-- R51, R62: the decoder reads the frame of every command that has one, whatever follows it, with every operand at every value. -/
def Obligations.DecodeReadsEncodedFrame : Prop :=
  ∀ (i : Instr) (rest : List Byte), i.wellFormed = true →
    decode (encode i ++ rest) = .complete i (encode i).length

/-- R50, R55: a frame has one meaning: the bytes the decoder takes are the encoding of the command it answers. -/
def Obligations.EncodeGivesDecodedFrame : Prop :=
  ∀ (f : List Byte) (i : Instr) (n : Nat), decode f = .complete i n →
    i.wellFormed = true ∧ n ≤ f.length ∧ encode i = f.take n

/-- R51, and the vectors of 95_test_vectors.md: some frames written out by hand. -/
def Obligations.WrittenOutFramesDecode : Prop :=
  decode [0x03] = .complete .const 1 ∧ decode [0x04] = .complete .conin 1 ∧
  decode [0x06, 0x00, 0x05, 0x00, 0x01, 0x00] = .complete (.readsum 0 5 1) 6 ∧
  decode [0x07, 0x00, 0x04, 0x03, 0x02, 0x01] = .complete (.writesum 0 772 258) 6 ∧
  decode [0x09, 0x00, 0x05, 0x00, 0x01, 0x00, 0xC0, 0xFF] = .complete (.readdma 0 5 1 0xFFC0) 8 ∧
  decode [0x0A, 0x00, 0x04, 0x03, 0x02, 0x01, 0x34, 0x12] = .complete (.writedma 0 772 258 0x1234) 8 ∧
  decode [0x01] = .unspecified .read ∧ decode [0x02] = .unspecified .write ∧ decode [0x05] = .unspecified .serout ∧
  decode [0x08] = .unrecognised 0x08 ∧ decode [0x06, 0x03, 0x04, 0x00, 0x00] = .incomplete

/-- R52: the table of frame lengths. -/
def Obligations.FrameLengthTable : Prop :=
  ∀ code : Byte, frameLen code =
    if code = 0x03 ∨ code = 0x04 then .length 1
    else if code = 0x06 ∨ code = 0x07 then .length 6
    else if code = 0x09 ∨ code = 0x0A then .length 8
    else if code = 0x01 ∨ code = 0x02 ∨ code = 0x05 then .unspecified
    else .unrecognised

/-- R55: operands are little-endian pairs, sector before track before address; format K has none. -/
def Obligations.OperandsAreLittleEndianPairs : Prop :=
  ∀ d sLo sHi tLo tHi aLo aHi : Byte, ∃ sector track address : U16,
    sector.toNat = 256 * sHi.toNat + sLo.toNat ∧ track.toNat = 256 * tHi.toNat + tLo.toNat ∧
    address.toNat = 256 * aHi.toNat + aLo.toNat ∧
    decode [0x06, d, sLo, sHi, tLo, tHi] = .complete (.readsum d sector track) 6 ∧
    decode [0x07, d, sLo, sHi, tLo, tHi] = .complete (.writesum d sector track) 6 ∧
    decode [0x09, d, sLo, sHi, tLo, tHi, aLo, aHi] = .complete (.readdma d sector track address) 8 ∧
    decode [0x0A, d, sLo, sHi, tLo, tHi, aLo, aHi] = .complete (.writedma d sector track address) 8 ∧
    decode [0x03] = .complete .const 1 ∧ decode [0x04] = .complete .conin 1

/-- R53: byte 0 alone decides how long the frame is, whatever parameter bytes have come. -/
def Obligations.FirstByteDecidesLength : Prop :=
  ∀ (code : Byte) (params : List Byte),
    match decode (code :: params) with
    | .incomplete => ∃ n, frameLen code = .length n ∧ params.length + 1 < n
    | .unrecognised c => c = code ∧ frameLen code = .unrecognised
    | .unspecified _ => frameLen code = .unspecified
    | .complete _ n => frameLen code = .length n ∧ n ≤ params.length + 1

/-- R60: the five status names and their three values, and which command answers with which. -/
def Obligations.ResponseStatusValues : Prop :=
  (Config.pollAgain = 0x00 ∧ Config.success = 0x01 ∧ Config.failure = 0xFF ∧ Config.ready = 0x01 ∧ Config.notReady = 0xFF) ∧
  ∀ (k : Byte) (keys sector : List Byte),
    constResponse [] = [Config.notReady] ∧ constResponse (k :: keys) = [Config.ready] ∧
    coninResponse [] = [Config.notReady] ∧ (coninResponse (k :: keys)).head? = some Config.ready ∧
    readdmaResponse.getLast? = some Config.success ∧ writedmaResponse = [Config.success] ∧
    (readsumResponse sector).head? = some Config.success

/-! ## Console commands (41_console_commands.md) -/

/-- R80: CONST answers whether a key waits, and changes the response queue only. -/
def Obligations.ConstAnswersKeyStatus : Prop :=
  ∀ s : State, exec .const s = .next { s with rq := s.rq ++ [if s.kq = [] then 0xFF else 0x01] }

/-- R81: CONIN answers READY and the oldest key, which it removes; on an empty queue NOT_READY alone. -/
def Obligations.ConinPopsOldestKey : Prop :=
  (∀ (s : State) (k : Byte) (rest : List Byte), s.kq = k :: rest →
    exec .conin s = .next { s with kq := rest, rq := s.rq ++ [0x01, k] }) ∧
  (∀ s : State, s.kq = [] → exec .conin s = .next { s with rq := s.rq ++ [0xFF] })

/-! ## Disk commands (42_disk_commands.md) -/

/-- R38: the offset formula, on natural numbers, with its range; the sector is the 128 bytes from there. -/
def Obligations.SectorOffsetFormula : Prop :=
  ∀ track sector : U16,
    sectorOffset track sector = (track.toNat * 64 + sector.toNat) * 128 ∧
    sectorOffset track sector ≤ 545251200 ∧ sectorOffset track sector < 2 ^ 30 ∧ 128 ∣ sectorOffset track sector ∧
    ∀ dk : Disk, sectorOffset track sector + 128 ≤ dk.len →
      (Disk.read dk (sectorOffset track sector) 128).length = 128 ∧
      ∀ i < 128, (Disk.read dk (sectorOffset track sector) 128)[i]? = some (Disk.byte dk (sectorOffset track sector + i))

/-- R39: pairs with the same 64 × track + sector name the same sector, to every disk command. -/
def Obligations.SectorPairsAlias : Prop :=
  ∀ (sector track sector' track' : U16), 64 * track.toNat + sector.toNat = 64 * track'.toNat + sector'.toNat →
    ∀ (d : Byte) (address : U16) (s : State),
      exec (.readdma d sector track address) s = exec (.readdma d sector' track' address) s ∧
      exec (.writedma d sector track address) s = exec (.writedma d sector' track' address) s ∧
      exec (.readsum d sector track) s = exec (.readsum d sector' track') s

/-- R33: the DMA transfers of 128 bytes wrap at the top of memory, touch 128 different addresses, and change no other byte. -/
def Obligations.MemoryTransfersWrap : Prop :=
  ∀ (m : Memory) (address : U16) (v : List Byte), v.length = 128 →
    (∀ i j, i < 128 → j < 128 → (address.toNat + i) % 65536 = (address.toNat + j) % 65536 → i = j) ∧
    (∀ i (h : i < 128), (Memory.readRange m address.toNat 128)[i]? = some (Memory.byte m ((address.toNat + i) % 65536)) ∧
      some (Memory.byte (Memory.writeRange m address.toNat v) ((address.toNat + i) % 65536)) = v[i]?) ∧
    (Memory.readRange m address.toNat 128).length = 128 ∧
    ∀ a, (∀ i < 128, (address.toNat + i) % 65536 ≠ a % 65536) →
      Memory.byte (Memory.writeRange m address.toNat v) a = Memory.byte m a

/-- R88, the transfer: READDMA on an attached disk that holds the whole sector. -/
def Obligations.ReaddmaTransfersSector : Prop :=
  ∀ (s : State) (d : Byte) (sector track address : U16) (dk : Disk),
    s.disk? d = some dk → sectorOffset track sector + 128 ≤ dk.len →
    ∃ mem' : Memory,
      exec (.readdma d sector track address) s =
        .next { s with
          mem := mem'
          scratch := Disk.read dk (sectorOffset track sector) 128
          rq := s.rq ++ [0x00, 0x00, 0x00, 0x01] } ∧
      (∀ i < 128, Memory.byte mem' (address.toNat + i) = Disk.byte dk (sectorOffset track sector + i)) ∧
      ∀ a, (∀ i < 128, (address.toNat + i) % 65536 ≠ a % 65536) → Memory.byte mem' a = Memory.byte s.mem a

/-- R90, the transfer: WRITEDMA on an attached disk, where store writes do not fail. R41: the disk grows to hold the sector; a gap
takes free values (log entry 7). -/
def Obligations.WritedmaStoresWindow : Prop :=
  ∀ (s : State) (d : Byte) (sector track address : U16) (dk : Disk),
    s.disk? d = some dk → s.storeWriteMayFail = false →
    ∃ dk' : Disk,
      exec (.writedma d sector track address) s =
        .next { s with
          disks := s.disks.set d.toNat dk'
          scratch := Memory.readRange s.mem address.toNat 128
          rq := s.rq ++ [0x01]
          draws := s.draws + 1 } ∧
      dk'.len = max dk.len (sectorOffset track sector + 128) ∧
      (∀ i < 128, Disk.byte dk' (sectorOffset track sector + i) = Memory.byte s.mem (address.toNat + i)) ∧
      (∀ o < dk.len, ¬ (sectorOffset track sector ≤ o ∧ o < sectorOffset track sector + 128) →
        Disk.byte dk' o = Disk.byte dk o) ∧
      ∀ o, dk.len ≤ o → o < sectorOffset track sector → Disk.byte dk' o = Config.freeDiskByte s.draws o

/-- R92: READSUM on an attached disk that holds the whole sector: SUCCESS, the sector, its sum low byte first. -/
def Obligations.ReadsumAnswersSectorAndSum : Prop :=
  ∀ (s : State) (d : Byte) (sector track : U16) (dk : Disk),
    s.disk? d = some dk → sectorOffset track sector + 128 ≤ dk.len →
    ∃ (data : List Byte) (sum : Nat),
      data.length = 128 ∧ (∀ i < 128, data[i]? = some (Disk.byte dk (sectorOffset track sector + i))) ∧
      sum = (data.map BitVec.toNat).sum ∧
      exec (.readsum d sector track) s =
        .next { s with
          scratch := data
          rq := s.rq ++ ([0x01] ++ data ++ [BitVec.ofNat 8 sum, BitVec.ofNat 8 (sum / 256)]) }

/-- R93: the checksum is the exact sum of the 128 bytes; it never reaches the modulus, and is answered low byte first. -/
def Obligations.ChecksumNeverWraps : Prop :=
  (∀ bs : List Byte, bs.length = 128 →
    (checksum bs).toNat = (bs.map BitVec.toNat).sum % 2 ^ 16 ∧ (checksum bs).toNat = (bs.map BitVec.toNat).sum ∧
    (bs.map BitVec.toNat).sum ≤ 32640 ∧ (highByte (checksum bs)).toNat ≤ 0x7F ∧
    (∀ w, 15 ≤ w → (bs.map BitVec.toNat).sum % 2 ^ w = (checksum bs).toNat) ∧
    (readsumResponse bs).drop 129 =
      [BitVec.ofNat 8 (bs.map BitVec.toNat).sum, BitVec.ofNat 8 ((bs.map BitVec.toNat).sum / 256)]) ∧
  checksum (List.replicate 128 0x00) = 0x0000 ∧ checksum (List.replicate 128 0xFF) = 0x7F80

/-- R87 (the spec's decision D6, log entry 12): a disk index with no disk faults before anything else, at every sector. -/
def Obligations.MissingDiskFaults : Prop :=
  ∀ (s : State) (d : Byte) (sector track address : U16), s.disks.length ≤ d.toNat →
    let halted := { s with
      halt := some (.diskIndexInvalid d)
      log := s.log ++ [.fatal (.diskIndexInvalid d)] }
    exec (.readdma d sector track address) s = .next halted ∧
    exec (.writedma d sector track address) s = .next halted ∧
    exec (.readsum d sector track) s = .next halted

/-- R89 (the spec's decision D9, log entries 1 and 9): a sector that reaches beyond the end of the disk faults a read; only SCRATCH is
left unspecified. -/
def Obligations.ShortReadFaults : Prop :=
  ∀ (s : State) (d : Byte) (sector track address : U16) (dk : Disk),
    s.disk? d = some dk → dk.len < sectorOffset track sector + 128 →
    ∃ (scratch' : List Byte) (cause : FaultCause),
      cause = .shortRead d (sectorOffset track sector) (dk.len - sectorOffset track sector) ∧ scratch'.length = 128 ∧
      let halted := { s with
        scratch := scratch'
        draws := s.draws + 1
        halt := some cause
        log := s.log ++ [.fatal cause] }
      exec (.readdma d sector track address) s = .next halted ∧ exec (.readsum d sector track) s = .next halted

/-- R91 (the spec's decision D8, log entries 1 and 8): whatever STORE_WRITE_MAY_FAIL, a WRITEDMA to an attached disk either answers SUCCESS or
takes the fault ShortWrite, which changes no byte of a disk outside the window. -/
def Obligations.WritedmaCompletesOrFallsShort : Prop :=
  ∀ (s : State) (d : Byte) (sector track address : U16) (dk : Disk), s.disk? d = some dk →
    ∃ dk' : Disk,
      (∀ o < dk.len, ¬ (sectorOffset track sector ≤ o ∧ o < sectorOffset track sector + 128) →
        o < dk'.len ∧ Disk.byte dk' o = Disk.byte dk o) ∧
      let stored := { s with
        disks := s.disks.set d.toNat dk'
        scratch := Memory.readRange s.mem address.toNat 128
        draws := s.draws + 1 }
      (exec (.writedma d sector track address) s = .next { stored with rq := s.rq ++ [0x01] } ∨
       s.storeWriteMayFail = true ∧ ∃ n < 128,
        exec (.writedma d sector track address) s =
          .next { stored with
            halt := some (.shortWrite d (sectorOffset track sector) n)
            log := s.log ++ [.fatal (.shortWrite d (sectorOffset track sector) n)] })

/-- R83, R94, R95, R96, R128: the four commands whose effect no source gives are refused, by name. -/
def Obligations.UndescribedCommandsRefused : Prop :=
  ∀ s : State,
    exec .read s = .refused (.unspecifiedCommand 0x01) ∧ exec .write s = .refused (.unspecifiedCommand 0x02) ∧
    exec .serout s = .refused (.unspecifiedCommand 0x05) ∧
    ∀ (d : Byte) (sector track : U16), exec (.writesum d sector track) s = .refused (.unspecifiedHandler 0x07)

/-- R97: what WRITEDMA stored, READDMA brings back anywhere and READSUM answers, however long after, if no other WRITEDMA has
reached into the sector and the block has not faulted. -/
def Obligations.WrittenSectorReadsBack : Prop :=
  ∀ (s t u : State) (d : Byte) (sector track address address' : U16) (p : List Byte),
    Memory.readRange s.mem address.toNat 128 = p →
    exec (.writedma d sector track address) s = .next t → t.halt = none →
    Run (fun x => ¬ x.overwrites d (sectorOffset track sector)) t u → u.halt = none →
    s.halt = none →
    (∃ v, exec (.readdma d sector track address') u = .next v ∧ v.halt = none ∧
      Memory.readRange v.mem address'.toNat 128 = p) ∧
    (∃ v, exec (.readsum d sector track) u = .next v ∧ v.halt = none ∧
      v.rq = u.rq ++ ([0x01] ++ p ++ [lowByte (checksum p), highByte (checksum p)]))

/-! ## The framer (40_command_framer.md) -/

/-- R70, R76 (an unrecognised code's fault as a next state: log entry 1): a write to the command port runs the command that the
buffer, with the byte appended, decodes to. -/
def Obligations.StepRunsDecodedCommand : Prop :=
  ∀ (s : State) (address : Nat) (v : Byte) (rest : List Transaction),
    s.halt = none → s.pending = .writePort address v :: rest → address % 256 = 0 →
    match decode (s.cb ++ [v]) with
    | .complete i n => (s.cb ++ [v]).length = n → step s = exec i { s with pending := rest, cb := [] }
    | .unspecified i => step s = exec i { s with pending := rest, cb := s.cb ++ [v] }
    | .incomplete => step s = .next { s with pending := rest, cb := s.cb ++ [v] }
    | .unrecognised code =>
      step s = .next { s with
        pending := rest
        cb := s.cb ++ [v]
        halt := some (.unknownCommand code)
        log := s.log ++ [.fatal (.unknownCommand code)] }

/-- R72 (log entry 1): an unrecognised code as byte 0 of a frame faults; the byte stays in CB and nothing else changes. -/
def Obligations.UnknownCodeFaults : Prop :=
  ∀ (s : State) (address : Nat) (v : Byte) (rest : List Transaction),
    s.halt = none → s.cb = [] → s.pending = .writePort address v :: rest → address % 256 = 0 →
    (v = 0x00 ∨ v = 0x08 ∨ 0x0B ≤ v.toNat) →
    step s = .next { s with
      pending := rest
      cb := [v]
      halt := some (.unknownCommand v)
      log := s.log ++ [.fatal (.unknownCommand v)] }

/-- R73, R94: byte 0 of READ, WRITE or SEROUT is refused at once, and WRITESUM when its sixth byte arrives. -/
def Obligations.StepRefusesUndescribedCommands : Prop :=
  ∀ (s : State) (address : Nat) (v : Byte) (rest : List Transaction),
    s.halt = none → s.pending = .writePort address v :: rest → address % 256 = 0 →
    (s.cb = [] → v = 0x01 ∨ v = 0x02 ∨ v = 0x05 → step s = .refused (.unspecifiedCommand v)) ∧
    (∀ d sLo sHi tLo : Byte, s.cb = [0x07, d, sLo, sHi, tLo] → step s = .refused (.unspecifiedHandler 0x07))

/-- R50, R77: a frame written one byte at a time runs its command once, on the write of its last byte, and eats no byte of what
follows. -/
def Obligations.FrameByteByByteRunsCommand : Prop :=
  ∀ (s : State) (i : Instr) (rest : List Transaction),
    s.halt = none → s.cb = [] → i.wellFormed = true →
    s.pending = (encode i).map (Transaction.writePort 0) ++ rest →
    ∃ t, Run (fun x => x.command? = none) s t ∧ t.command? = some i ∧ step t = exec i { s with pending := rest }

/-- R78: no transaction but a write to the command port changes CB. -/
def Obligations.OtherTransactionsLeaveBuffer : Prop :=
  ∀ s t : State, step s = .next t →
    (∀ address v, s.next? = some (.writePort address v) → address % 256 ≠ 0) → t.cb = s.cb

/-! ## The transactions (43_port_interface.md) -/

/-- R101: a read of the command port pops the response queue, or answers 0x00 on an empty one. -/
def Obligations.CommandPortReadPops : Prop :=
  ∀ (s : State) (address : Nat) (rest : List Transaction),
    s.halt = none → s.pending = .readPort address :: rest → address % 256 = 0 →
    (∀ b q, s.rq = b :: q →
      step s = .next { s with pending := rest, rq := q, returned := s.returned ++ [.port 0x00 b] }) ∧
    (s.rq = [] → step s = .next { s with pending := rest, returned := s.returned ++ [.port 0x00 0x00] })

/-- R102: a read of any other port, the console port among them, logs a warning and answers 0x00; nothing else changes. -/
def Obligations.UnmappedReadWarns : Prop :=
  ∀ (s : State) (address : Nat) (rest : List Transaction),
    s.halt = none → s.pending = .readPort address :: rest → address % 256 ≠ 0 →
    step s = .next { s with
      pending := rest
      log := s.log ++ [.unmappedPortRead (BitVec.ofNat 8 (address % 256))]
      returned := s.returned ++ [.port (BitVec.ofNat 8 (address % 256)) 0x00] }

/-- R103: readMemory returns the byte at the address mod 65536 and changes nothing. -/
def Obligations.MemoryReadReturnsByte : Prop :=
  ∀ (s : State) (address : Nat) (rest : List Transaction),
    s.halt = none → s.pending = .readMemory address :: rest →
    step s = .next { s with
      pending := rest
      returned := s.returned ++ [.memory (address % 65536) (Memory.byte s.mem (address % 65536))] }

/-- R104: writeMemory sets the byte at the address mod 65536, and nothing else. -/
def Obligations.MemoryWriteSetsByte : Prop :=
  ∀ (s : State) (address : Nat) (v : Byte) (rest : List Transaction),
    s.halt = none → s.pending = .writeMemory address v :: rest →
    ∃ mem' : Memory, step s = .next { s with pending := rest, mem := mem' } ∧
      Memory.byte mem' (address % 65536) = v ∧
      ∀ a, a % 65536 ≠ address % 65536 → Memory.byte mem' a = Memory.byte s.mem a

/-- R106: a write to the console port emits one character. -/
def Obligations.ConsoleWriteEmits : Prop :=
  ∀ (s : State) (address : Nat) (v : Byte) (rest : List Transaction),
    s.halt = none → s.pending = .writePort address v :: rest → address % 256 = 0x80 →
    step s = .next { s with pending := rest, console := s.console ++ [v] }

/-- R107 (log entry 1): a write to any other port faults, whatever the value; nothing else changes. -/
def Obligations.UnmappedWriteFaults : Prop :=
  ∀ (s : State) (address : Nat) (v : Byte) (rest : List Transaction),
    s.halt = none → s.pending = .writePort address v :: rest → address % 256 ≠ 0 → address % 256 ≠ 0x80 →
    ∃ cause : FaultCause, cause = .unmappedPortWrite (BitVec.ofNat 8 (address % 256)) v ∧
      step s = .next { s with pending := rest, halt := some cause, log := s.log ++ [.fatal cause] }

/-- R108: a key is appended to the key queue; every byte value is taken (the spec's decision D18). -/
def Obligations.KeyPushAppends : Prop :=
  ∀ (s : State) (b : Byte) (rest : List Transaction),
    s.halt = none → s.pending = .keyPush b :: rest →
    step s = .next { s with pending := rest, kq := s.kq ++ [b] }

/-- R34: two port addresses with the same low byte name the same port. -/
def Obligations.PortAddressesAreMasked : Prop :=
  ∀ (a b : Nat) (v : Byte) (s : State), a % 256 = b % 256 →
    transact (.readPort a) s = transact (.readPort b) s ∧ transact (.writePort a v) s = transact (.writePort b v) s

/-- R32: two memory addresses that agree mod 65536 are the same address. -/
def Obligations.MemoryAddressesAreReduced : Prop :=
  ∀ (a b : Nat) (v : Byte) (s : State), a % 65536 = b % 65536 →
    transact (.readMemory a) s = transact (.readMemory b) s ∧ transact (.writeMemory a v) s = transact (.writeMemory b v) s

/-- R5, R7 (log entry 2): a step takes the next transaction, or does nothing when none is to come. -/
def Obligations.StepTakesNextTransaction : Prop :=
  ∀ s : State, s.halt = none →
    (s.pending = [] → step s = .next s) ∧
    ∀ x rest, s.pending = x :: rest → step s = transact x { s with pending := rest }

/-! ## The whole machine -/

/-- R127 (the spec's decision D2, log entry 1): a halted block accepts no transaction. -/
def Obligations.HaltedBlockAcceptsNothing : Prop :=
  ∀ (s : State) (cause : FaultCause), s.halt = some cause → step s = .fault (.halted cause)

/-- R128 (the spec's decisions D4, D5): a block that is not halted is refused only for the four undescribed commands, written to the
command port. The clause that its step never answers a fault is the model's choice (log entry 1), no rule of the spec: R8 has a
transaction complete, fault or be refused, and the model answers a faulting one with a NEXT state in which HALT is set. -/
def Obligations.OnlyUndescribedCommandsStop : Prop :=
  ∀ s : State, s.halt = none →
    (∀ f, step s ≠ .fault f) ∧
    ∀ r, step s = .refused r →
      (r = .unspecifiedCommand 0x01 ∨ r = .unspecifiedCommand 0x02 ∨ r = .unspecifiedCommand 0x05 ∨
        r = .unspecifiedHandler 0x07) ∧
      ∃ address v, s.next? = some (.writePort address v) ∧ address % 256 = 0

/-- R121, R123 (the faulting step as a next state with HALT set: log entry 1): only a write to a port can fault, never one to the console port; what the transaction was fits the cause. -/
def Obligations.FaultsComeFromPortWrites : Prop :=
  ∀ s t : State, s.halt = none → step s = .next t → ∀ cause, t.halt = some cause →
    ∃ address v, s.next? = some (.writePort address v) ∧ address % 256 ≠ 0x80 ∧
      match cause with
      | .unmappedPortWrite pa value => pa.toNat = address % 256 ∧ pa.toNat ≠ 0 ∧ value = v
      | .unknownCommand code => address % 256 = 0 ∧ (s.cb ++ [v]).head? = some code ∧ frameLen code = .unrecognised
      | .diskIndexInvalid d => s.disks.length ≤ d.toNat ∧
          ∃ sector track a, s.command? = some (.readsum d sector track) ∨
            s.command? = some (.readdma d sector track a) ∨ s.command? = some (.writedma d sector track a)
      | .shortRead d off n => n < 128 ∧ ∃ sector track a, off = sectorOffset track sector ∧
          (s.command? = some (.readsum d sector track) ∨ s.command? = some (.readdma d sector track a))
      | .shortWrite d off n => n < 128 ∧ s.storeWriteMayFail = true ∧ ∃ sector track a,
          off = sectorOffset track sector ∧ s.command? = some (.writedma d sector track a)

/-- R59, R112: what one step does to the response queue: it takes the byte a read of the command port returns from the front, and
puts the response of the completed command, as the table of R59 gives it, at the back. -/
def Obligations.StepMovesResponseQueue : Prop :=
  ∀ s t : State, step s = .next t → s.rq ++ s.pushed = s.popped ++ t.rq

/-- R109: over every run the response queue is a FIFO: no byte lost, duplicated or reordered. -/
def Obligations.ResponseQueueIsFifo : Prop :=
  ∀ (s t : State) (pushes got : List Byte), Traffic s pushes got t → s.rq ++ pushes = got ++ t.rq

/-- R14: the key queue grows only by keyPush and shrinks only by CONIN, one key at a time. -/
def Obligations.KeyQueueChangesOnlyByPushAndConin : Prop :=
  ∀ s t : State, step s = .next t →
    t.kq = match s.next? with
      | some (.keyPush b) => s.kq ++ [b]
      | _ => if s.command? = some .conin then s.kq.tail else s.kq

/-- R12: a byte of memory changes only by a writeMemory to it or by a READDMA whose window holds it. -/
def Obligations.MemoryChangesOnlyByWriteAndReaddma : Prop :=
  ∀ s t : State, step s = .next t → ∀ a : Nat, Memory.byte t.mem a ≠ Memory.byte s.mem a →
    (∃ address v, s.next? = some (.writeMemory address v) ∧ address % 65536 = a % 65536) ∨
    ∃ d sector track address, s.command? = some (.readdma d sector track address) ∧
      ∃ i < 128, (address.toNat + i) % 65536 = a % 65536

/-- R16, R23: the set of disks and STORE_WRITE_MAY_FAIL are fixed, and a disk changes only by a WRITEDMA that names it. -/
def Obligations.DisksChangeOnlyByWritedma : Prop :=
  ∀ s t : State, step s = .next t →
    t.disks.length = s.disks.length ∧ t.storeWriteMayFail = s.storeWriteMayFail ∧
    ∀ k : Nat, t.disks[k]? ≠ s.disks[k]? →
      ∃ d sector track address, s.command? = some (.writedma d sector track address) ∧ d.toNat = k

/-- R19, R20: CONSOLE and LOG are append-only; the console takes exactly the byte written to port 0x80. -/
def Obligations.TracesOnlyGrow : Prop :=
  ∀ s t : State, step s = .next t →
    (∃ events, t.log = s.log ++ events ∧ events.length ≤ 1) ∧ (∃ reads, t.returned = s.returned ++ reads) ∧
    t.console = match s.next? with
      | some (.writePort address v) => if address % 256 = 0x80 then s.console ++ [v] else s.console
      | _ => s.console

/-- R17: SCRATCH carries nothing from one transaction to the next: two blocks that differ in it alone go the same way. -/
def Obligations.ScratchIsNotObservable : Prop :=
  ∀ (s : State) (other : List Byte), withoutScratch (step { s with scratch := other }) = withoutScratch (step s)

/-- R24, R122 and the canonical forms: every step keeps the invariant. -/
def Obligations.StepKeepsInvariant : Prop :=
  ∀ s t : State, Inv s → step s = .next t → Inv t

/-- R140: the invariant holds at reset, for every memory image and every set of disks in canonical form without free bytes. -/
def Obligations.ResetMeetsInvariant : Prop :=
  ∀ (memInit : Memory) (diskInit : List Disk) (mayFail : Bool), Memory.wf memInit →
    (∀ dk ∈ diskInit, Disk.wf dk ∧ dk.holes = []) → Inv (State.resetWith memInit diskInit mayFail)

/-- R140, 10_state.md section 5: the reset values. The empty queues are the spec's decision D10; the zeros of SCRATCH (log entry 6) are
left out. -/
def Obligations.ResetValues : Prop :=
  ∀ (memInit : Memory) (diskInit : List Disk) (mayFail : Bool),
    let s := State.resetWith memInit diskInit mayFail
    s.mem = memInit ∧ s.rq = [] ∧ s.kq = [] ∧ s.cb = [] ∧ s.disks = diskInit ∧ s.halt = none ∧ s.console = [] ∧ s.log = [] ∧
      s.storeWriteMayFail = mayFail ∧ s.scratch.length = 128

/-- R142: a sector written by a completed WRITEDMA is on the disk of a block created again over the same backing. -/
def Obligations.RecreatedBlockHoldsSector : Prop :=
  ∀ (s t : State) (d : Byte) (sector track address address' : U16) (memInit : Memory) (mayFail : Bool),
    s.halt = none → exec (.writedma d sector track address) s = .next t → t.halt = none →
    ∃ v, exec (.readdma d sector track address') (t.recreate memInit mayFail) = .next v ∧ v.halt = none ∧
      Memory.readRange v.mem address'.toNat 128 = Memory.readRange s.mem address.toNat 128
end

