-- ==== Sys2Proof/Laws/Words.lean ====
section
/-! SUPPORT. The bytes of a 16-bit value. -/

namespace Sys2Proof

theorem joinBytes_toNat (lo hi : Byte) : (joinBytes lo hi).toNat = 256 * hi.toNat + lo.toNat := by
  have := lo.isLt
  have := hi.isLt
  simp only [joinBytes, BitVec.toNat_ofNat]
  omega

theorem lowByte_toNat (v : U16) : (lowByte v).toNat = v.toNat % 256 := by
  simp [lowByte]

theorem highByte_toNat (v : U16) : (highByte v).toNat = v.toNat / 256 := by
  have := v.isLt
  simp only [highByte, BitVec.toNat_ofNat]
  omega

@[simp] theorem joinBytes_lowByte_highByte (v : U16) : joinBytes (lowByte v) (highByte v) = v := by
  apply BitVec.eq_of_toNat_eq
  rw [joinBytes_toNat, lowByte_toNat, highByte_toNat]
  omega

@[simp] theorem lowByte_joinBytes (lo hi : Byte) : lowByte (joinBytes lo hi) = lo := by
  have := lo.isLt
  apply BitVec.eq_of_toNat_eq
  rw [lowByte_toNat, joinBytes_toNat]
  omega

@[simp] theorem highByte_joinBytes (lo hi : Byte) : highByte (joinBytes lo hi) = hi := by
  have := lo.isLt
  apply BitVec.eq_of_toNat_eq
  rw [highByte_toNat, joinBytes_toNat]
  omega

end Sys2Proof
end

