-- ==== Sys2Proof/Laws/Decode.lean ====
section
/-! SUPPORT. What the decoder can answer, and what it looks at. -/

namespace Sys2Proof

/-- Byte 0 decides the frame length; the rest of the frame does not (30_encoding.md R53). -/
theorem commandOf_frameLength (code : Byte) (f f' : List Byte) :
    (commandOf code f).map Instr.frameLength = (commandOf code f').map Instr.frameLength := by
  unfold commandOf
  repeat' split
  all_goals rfl

theorem frameLen_eq_length {code : Byte} {f : List Byte} {i : Instr} {n : Nat} (hc : commandOf code f = some i)
    (hn : i.frameLength = some n) : frameLen code = .length n := by
  have h := commandOf_frameLength code f []
  rw [hc] at h
  unfold frameLen
  cases hc' : commandOf code [] with
  | none => rw [hc'] at h; simp at h
  | some j =>
    rw [hc'] at h
    have hj : j.frameLength = some n := by simpa [hn] using h.symm
    simp [hj]

theorem decode_eq_complete {f : List Byte} {i : Instr} {n : Nat} (h : decode f = .complete i n) :
    ∃ code params, f = code :: params ∧ commandOf code f = some i ∧ i.frameLength = some n ∧ n ≤ f.length := by
  cases f with
  | nil => simp [decode] at h
  | cons code params =>
    refine ⟨code, params, rfl, ?_⟩
    simp only [decode] at h
    split at h
    · simp at h
    · rename_i j hj
      split at h
      · simp at h
      · rename_i m hm
        split at h
        · rename_i hle
          simp only [Decoded.complete.injEq] at h
          obtain ⟨rfl, rfl⟩ := h
          exact ⟨hj, hm, hle⟩
        · simp at h

theorem decode_eq_unspecified {f : List Byte} {i : Instr} (h : decode f = .unspecified i) :
    i = .read ∨ i = .write ∨ i = .serout := by
  cases f with
  | nil => simp [decode] at h
  | cons code params =>
    simp only [decode] at h
    split at h
    · simp at h
    · rename_i j hj
      split at h
      · rename_i hm
        simp only [Decoded.unspecified.injEq] at h
        subst h
        cases j <;> simp_all [Instr.frameLength]
      · split at h <;> simp at h

theorem decode_eq_unrecognised {f : List Byte} {code : Byte} (h : decode f = .unrecognised code) :
    f.head? = some code ∧ frameLen code = .unrecognised := by
  cases f with
  | nil => simp [decode] at h
  | cons c params =>
    simp only [decode] at h
    split at h
    · rename_i hc
      simp only [Decoded.unrecognised.injEq] at h
      subst h
      refine ⟨rfl, ?_⟩
      have h' := commandOf_frameLength c (c :: params) []
      rw [hc] at h'
      unfold frameLen
      cases hc' : commandOf c [] with
      | none => rfl
      | some j => rw [hc'] at h'; simp at h'
    · split at h
      · simp at h
      · split at h <;> simp at h

theorem decode_eq_incomplete {code : Byte} {params : List Byte} (h : decode (code :: params) = .incomplete) :
    ∃ n, frameLen code = .length n ∧ params.length + 1 < n := by
  simp only [decode] at h
  split at h
  · simp at h
  · rename_i j hj
    split at h
    · simp at h
    · rename_i m hm
      split at h
      · simp at h
      · rename_i hlt
        exact ⟨m, frameLen_eq_length hj hm, by simpa using hlt⟩

/-- The decoder reads a whole frame and nothing behind it. -/
theorem decode_of_frame {code : Byte} {params rest : List Byte} {i : Instr} {n : Nat}
    (hc : commandOf code (code :: params ++ rest) = some i) (hn : i.frameLength = some n) (hlen : params.length + 1 = n) :
    decode (code :: params ++ rest) = .complete i n := by
  rw [List.cons_append] at hc ⊢
  simp only [decode, hc, hn]
  rw [if_pos (by simp only [List.length_cons, List.length_append]; omega)]

/-- The first byte of a frame is the code it is decoded by, and no command has the code of another. -/
theorem encode_ne_nil (i : Instr) : encode i ≠ [] := by
  cases i <;> simp [encode]

/-- The codes of the table are nine different bytes. -/
theorem codes_nodup : ([Config.cmdRead, Config.cmdWrite, Config.cmdConst, Config.cmdConin, Config.cmdSerout, Config.cmdReadsum,
    Config.cmdWritesum, Config.cmdReaddma, Config.cmdWritedma] : List Byte).Nodup := by
  decide

end Sys2Proof
end

