-- ==== Sys2Proof/Laws/Memory.lean ====
section
/-! SUPPORT. Read after write, and the canonical form, for lists of (address, byte) and for MEM. -/

namespace Sys2Proof.Machine

/-! ## Reading -/

theorem Cells.get_of_no_entry {cs : List Host.Cell} {a : Nat} (h : ∀ c ∈ cs, c.1 ≠ a) :
    Cells.get cs a = Config.unlistedByte := by
  induction cs with
  | nil => rfl
  | cons c cs ih =>
    simp only [Cells.get, if_neg (h c (by simp))]
    exact ih fun c' hc' => h c' (List.mem_cons_of_mem _ hc')

theorem Cells.get_filter {cs : List Host.Cell} {a : Nat} {p : Host.Cell → Bool} (h : ∀ c ∈ cs, c.1 = a → p c = true) :
    Cells.get (cs.filter p) a = Cells.get cs a := by
  induction cs with
  | nil => rfl
  | cons c cs ih =>
    have ih := ih fun c' hc' => h c' (List.mem_cons_of_mem _ hc')
    by_cases hp : p c = true
    · simp only [List.filter_cons_of_pos hp, Cells.get, ih]
    · have hne : c.1 ≠ a := fun e => hp (h c (by simp) e)
      simp only [List.filter_cons_of_neg hp, Cells.get, if_neg hne, ih]

theorem Cells.get_insert (a : Nat) (b : Byte) (cs : List Host.Cell) (h : ∀ c ∈ cs, c.1 ≠ a) (a' : Nat) :
    Cells.get (Cells.insert a b cs) a' = if a = a' then b else Cells.get cs a' := by
  induction cs with
  | nil => rfl
  | cons c cs ih =>
    have ih := ih fun c' hc' => h c' (List.mem_cons_of_mem _ hc')
    have hne := h c (by simp)
    simp only [Cells.insert]
    split
    · simp only [Cells.get]
    · simp only [Cells.get, ih]
      split <;> split <;> simp_all

theorem Cells.get_set (cs : List Host.Cell) (a : Nat) (b : Byte) (a' : Nat) :
    Cells.get (Cells.set cs a b) a' = if a = a' then b else Cells.get cs a' := by
  have hno : ∀ c ∈ cs.filter (fun c => decide (c.1 ≠ a)), c.1 ≠ a := by simp
  have hother : a ≠ a' → Cells.get (cs.filter (fun c => decide (c.1 ≠ a))) a' = Cells.get cs a' := fun hne =>
    Cells.get_filter fun c _ hc => by simp [hc, Ne.symm hne]
  by_cases hb : b = Config.unlistedByte
  · by_cases ha : a = a'
    · subst ha; rw [if_pos rfl, Cells.set, if_pos hb, Cells.get_of_no_entry hno, hb]
    · rw [if_neg ha, Cells.set, if_pos hb, hother ha]
  · rw [Cells.set, if_neg hb, Cells.get_insert a b _ hno]
    by_cases ha : a = a'
    · simp [ha]
    · rw [if_neg ha, if_neg ha, hother ha]

theorem Cells.get_setRange_out (bs : List Byte) (cs : List Host.Cell) (a a' : Nat) (h : a' < a ∨ a + bs.length ≤ a') :
    Cells.get (Cells.setRange cs a bs) a' = Cells.get cs a' := by
  induction bs generalizing cs a with
  | nil => rfl
  | cons b bs ih =>
    simp only [List.length_cons] at h
    rw [Cells.setRange, ih _ _ (by omega), Cells.get_set, if_neg (by omega)]

theorem Cells.get_setRange_in (bs : List Byte) (cs : List Host.Cell) (a i : Nat) (h : i < bs.length) :
    Cells.get (Cells.setRange cs a bs) (a + i) = bs[i] := by
  induction bs generalizing cs a i with
  | nil => simp at h
  | cons b bs ih =>
    cases i with
    | zero => rw [Cells.setRange, Cells.get_setRange_out _ _ _ _ (by omega), Cells.get_set]; simp
    | succ i =>
      rw [Cells.setRange, show a + (i + 1) = a + 1 + i by omega, ih _ _ _ (by simpa using h)]
      simp

/-! ## The canonical form -/

theorem Cells.mem_insert {a : Nat} {b : Byte} {cs : List Host.Cell} {c : Host.Cell} (h : c ∈ Cells.insert a b cs) :
    c = (a, b) ∨ c ∈ cs := by
  induction cs with
  | nil => simpa [Cells.insert] using h
  | cons c' cs ih =>
    simp only [Cells.insert] at h
    split at h
    · simpa using h
    · rcases List.mem_cons.1 h with rfl | h
      · simp
      · rcases ih h with h | h <;> simp [h]

theorem Cells.mem_set {cs : List Host.Cell} {a : Nat} {b : Byte} {c : Host.Cell} (h : c ∈ Cells.set cs a b) :
    c = (a, b) ∨ (c ∈ cs ∧ c.1 ≠ a) := by
  unfold Cells.set at h
  split at h
  · right; simpa using h
  · rcases Cells.mem_insert h with h | h
    · exact .inl h
    · right; simpa using h

theorem Cells.pairwise_insert {a : Nat} {b : Byte} {cs : List Host.Cell} (hno : ∀ c ∈ cs, c.1 ≠ a)
    (h : cs.Pairwise (fun c c' => c.1 < c'.1)) : (Cells.insert a b cs).Pairwise (fun c c' => c.1 < c'.1) := by
  induction cs with
  | nil => simp [Cells.insert]
  | cons c cs ih =>
    have hne := hno c (by simp)
    rw [List.pairwise_cons] at h
    have hno' : ∀ c' ∈ cs, c'.1 ≠ a := fun c' hc' => hno c' (List.mem_cons_of_mem _ hc')
    simp only [Cells.insert]
    split
    · rename_i hlt
      refine List.pairwise_cons.2 ⟨fun c' hc' => ?_, List.pairwise_cons.2 h⟩
      rcases List.mem_cons.1 hc' with rfl | hc'
      · exact hlt
      · exact Nat.lt_trans hlt (h.1 c' hc')
    · refine List.pairwise_cons.2 ⟨fun c' hc' => ?_, ih hno' h.2⟩
      rcases Cells.mem_insert hc' with rfl | hc'
      · exact show c.1 < a by omega
      · exact h.1 c' hc'

theorem Cells.set_wf {cs : List Host.Cell} (h : Cells.wf cs) (a : Nat) (b : Byte) : Cells.wf (Cells.set cs a b) := by
  refine ⟨?_, fun c hc => ?_⟩
  · unfold Cells.set
    split
    · exact h.1.filter _
    · exact Cells.pairwise_insert (by simp) (h.1.filter _)
  · unfold Cells.set at hc
    split at hc
    · exact h.2 c (List.mem_filter.1 hc).1
    · rename_i hb
      rcases Cells.mem_insert hc with rfl | hc
      · exact hb
      · exact h.2 c (List.mem_filter.1 hc).1

theorem Cells.setRange_wf {cs : List Host.Cell} (h : Cells.wf cs) (a : Nat) (bs : List Byte) :
    Cells.wf (Cells.setRange cs a bs) := by
  induction bs generalizing cs a with
  | nil => exact h
  | cons b bs ih => exact ih (Cells.set_wf h a b) (a + 1)

theorem Cells.mem_setRange {cs : List Host.Cell} {a : Nat} {bs : List Byte} {c : Host.Cell}
    (h : c ∈ Cells.setRange cs a bs) : (a ≤ c.1 ∧ c.1 < a + bs.length) ∨ (c ∈ cs ∧ (c.1 < a ∨ a + bs.length ≤ c.1)) := by
  induction bs generalizing cs a with
  | nil =>
    have h : c ∈ cs := h
    exact .inr ⟨h, by simp only [List.length_nil]; omega⟩
  | cons b bs ih =>
    simp only [List.length_cons]
    rcases ih h with h | ⟨h, h'⟩
    · left; omega
    · rcases Cells.mem_set h with rfl | ⟨h, hne⟩
      · left; simp
      · by_cases hin : a ≤ c.1 ∧ c.1 < a + (bs.length + 1)
        · exact .inl hin
        · exact .inr ⟨h, by omega⟩

theorem Cells.filter_wf {cs : List Host.Cell} (h : Cells.wf cs) (p : Host.Cell → Bool) : Cells.wf (cs.filter p) :=
  ⟨h.1.filter _, fun c hc => h.2 c (List.mem_filter.1 hc).1⟩

/-! ## MEM -/

/-- The whole of what a byte write does to MEM (20_memory.md R32). -/
theorem Memory.byte_setByte (m : Memory) (a : Nat) (b : Byte) (a' : Nat) :
    Memory.byte (Memory.setByte m a b) a' = if Memory.reduce a = Memory.reduce a' then b else Memory.byte m a' :=
  Cells.get_set _ _ _ _

@[simp] theorem Memory.reduce_reduce (a : Nat) : Memory.reduce (Memory.reduce a) = Memory.reduce a := by
  simp [Memory.reduce]

@[simp] theorem Memory.byte_reduce (m : Memory) (a : Nat) : Memory.byte m (Memory.reduce a) = Memory.byte m a := by
  simp [Memory.byte]

@[simp] theorem Memory.readRange_length (m : Memory) (a n : Nat) : (Memory.readRange m a n).length = n := by
  simp [Memory.readRange]

theorem Memory.readRange_getElem (m : Memory) (a n i : Nat) (h : i < (Memory.readRange m a n).length) :
    (Memory.readRange m a n)[i] = Memory.byte m (a + i) := by
  simp [Memory.readRange]

/-- Outside the window of `MemWrite` nothing changes (R33). -/
theorem Memory.byte_writeRange_out (bs : List Byte) (m : Memory) (a a' : Nat)
    (h : ∀ i < bs.length, Memory.reduce (a + i) ≠ Memory.reduce a') :
    Memory.byte (Memory.writeRange m a bs) a' = Memory.byte m a' := by
  induction bs generalizing m a with
  | nil => rfl
  | cons b bs ih =>
    have h0 : Memory.reduce a ≠ Memory.reduce a' := h 0 (by simp)
    rw [Memory.writeRange, ih, Memory.byte_setByte, if_neg h0]
    intro i hi
    have := h (i + 1) (by simpa using hi)
    rwa [show a + (i + 1) = a + 1 + i by omega] at this

/-- The window of `MemWrite` holds what was written, if it is not longer than the memory (R33). -/
theorem Memory.byte_writeRange_in (bs : List Byte) (m : Memory) (a i : Nat) (hi : i < bs.length)
    (hlen : bs.length ≤ Config.memSize) : Memory.byte (Memory.writeRange m a bs) (a + i) = bs[i] := by
  induction bs generalizing m a i with
  | nil => simp at hi
  | cons b bs ih =>
    simp only [List.length_cons, Config.memSize] at hlen
    cases i with
    | zero =>
      rw [Memory.writeRange, Memory.byte_writeRange_out, Memory.byte_setByte]
      · simp
      · intro j hj
        simp only [Memory.reduce, Config.memSize]
        omega
    | succ i =>
      rw [Memory.writeRange, show a + (i + 1) = a + 1 + i by omega,
        ih _ _ _ (by simpa using hi) (by simp only [Config.memSize]; omega)]
      simp

/-- `MemRead` after `MemWrite` of the same window. -/
theorem Memory.readRange_writeRange (m : Memory) (a : Nat) (bs : List Byte) (hlen : bs.length ≤ Config.memSize) :
    Memory.readRange (Memory.writeRange m a bs) a bs.length = bs := by
  apply List.ext_getElem (by simp)
  intro i h₁ h₂
  rw [Memory.readRange_getElem, Memory.byte_writeRange_in _ _ _ _ h₂ hlen]

theorem Memory.setByte_wf {m : Memory} (h : Memory.wf m) (a : Nat) (b : Byte) : Memory.wf (Memory.setByte m a b) := by
  refine ⟨Cells.set_wf h.1 _ _, fun c hc => ?_⟩
  rcases Cells.mem_set hc with rfl | hc
  · exact Nat.mod_lt _ (by simp)
  · exact h.2 c hc.1

theorem Memory.writeRange_wf {m : Memory} (h : Memory.wf m) (a : Nat) (bs : List Byte) :
    Memory.wf (Memory.writeRange m a bs) := by
  induction bs generalizing m a with
  | nil => exact h
  | cons b bs ih => exact ih (Memory.setByte_wf h a b) (a + 1)

/-! ## Equal contents are equal data -/

theorem Cells.get_of_mem {cs : List Host.Cell} (h : cs.Pairwise (fun c c' => c.1 < c'.1)) {c : Host.Cell} (hc : c ∈ cs) :
    Cells.get cs c.1 = c.2 := by
  induction cs with
  | nil => simp at hc
  | cons c' cs ih =>
    rw [List.pairwise_cons] at h
    rcases List.mem_cons.1 hc with rfl | hc
    · simp [Cells.get]
    · have := h.1 c hc
      rw [Cells.get, if_neg (by omega), ih h.2 hc]

/-- Two lists in canonical form that read alike at every address are the same list. -/
theorem Cells.ext {cs cs' : List Host.Cell} (h : Cells.wf cs) (h' : Cells.wf cs')
    (hget : ∀ a, Cells.get cs a = Cells.get cs' a) : cs = cs' := by
  have hsub : ∀ {cs cs' : List Host.Cell}, Cells.wf cs → Cells.wf cs' → (∀ a, Cells.get cs a = Cells.get cs' a) →
      ∀ c ∈ cs, c ∈ cs' := by
    intro cs cs' h h' hget c hc
    have h1 := Cells.get_of_mem h.1 hc
    have h2 := h.2 c hc
    by_contra hno
    by_cases hex : ∃ c' ∈ cs', c'.1 = c.1
    · obtain ⟨c', hc', he⟩ := hex
      have h3 := Cells.get_of_mem h'.1 hc'
      rw [he, ← hget, h1] at h3
      exact hno (by rw [show c = c' from Prod.ext he.symm h3]; exact hc')
    · have := Cells.get_of_no_entry (cs := cs') (a := c.1) fun c' hc' he => hex ⟨c', hc', he⟩
      rw [← hget, h1] at this
      exact h2 this
  have hperm : cs.Perm cs' :=
    (List.perm_ext_iff_of_nodup (h.1.imp fun hlt he => by rw [he] at hlt; omega)
      (h'.1.imp fun hlt he => by rw [he] at hlt; omega)).2
      fun c => ⟨hsub h h' hget c, hsub h' h (fun a => (hget a).symm) c⟩
  exact hperm.eq_of_pairwise (fun a b _ _ h1 h2 => by omega) h.1 h'.1

/-- Equal memories are equal data. -/
theorem Memory.ext {m m' : Memory} (h : Memory.wf m) (h' : Memory.wf m') (hbyte : ∀ a, Memory.byte m a = Memory.byte m' a) :
    m = m' := by
  refine Cells.ext h.1 h'.1 fun a => ?_
  by_cases ha : a < Config.memSize
  · have := hbyte a
    rwa [Memory.byte, Memory.byte, Memory.reduce, Nat.mod_eq_of_lt ha] at this
  · have hno : ∀ {m : Memory}, Memory.wf m → ∀ c ∈ m, c.1 ≠ a := fun hm c hc he => ha (by rw [← he]; exact hm.2 c hc)
    rw [Cells.get_of_no_entry (hno h), Cells.get_of_no_entry (hno h')]

end Sys2Proof.Machine
end

