-- ==== Sys2Proof/Laws/State.lean ====
section
/-! SUPPORT. What each named update does to each field of State, and what it does not do. -/

namespace Sys2Proof.Machine

/-! ## respond -/

@[simp] theorem State.respond_mem (s : State) (bs : List Byte) : (s.respond bs).mem = s.mem := rfl
@[simp] theorem State.respond_rq (s : State) (bs : List Byte) : (s.respond bs).rq = s.rq ++ bs := rfl
@[simp] theorem State.respond_kq (s : State) (bs : List Byte) : (s.respond bs).kq = s.kq := rfl
@[simp] theorem State.respond_cb (s : State) (bs : List Byte) : (s.respond bs).cb = s.cb := rfl
@[simp] theorem State.respond_disks (s : State) (bs : List Byte) : (s.respond bs).disks = s.disks := rfl
@[simp] theorem State.respond_scratch (s : State) (bs : List Byte) : (s.respond bs).scratch = s.scratch := rfl
@[simp] theorem State.respond_halt (s : State) (bs : List Byte) : (s.respond bs).halt = s.halt := rfl
@[simp] theorem State.respond_console (s : State) (bs : List Byte) : (s.respond bs).console = s.console := rfl
@[simp] theorem State.respond_log (s : State) (bs : List Byte) : (s.respond bs).log = s.log := rfl
@[simp] theorem State.respond_storeWriteMayFail (s : State) (bs : List Byte) :
    (s.respond bs).storeWriteMayFail = s.storeWriteMayFail := rfl
@[simp] theorem State.respond_pending (s : State) (bs : List Byte) : (s.respond bs).pending = s.pending := rfl
@[simp] theorem State.respond_returned (s : State) (bs : List Byte) : (s.respond bs).returned = s.returned := rfl
@[simp] theorem State.respond_draws (s : State) (bs : List Byte) : (s.respond bs).draws = s.draws := rfl

/-! ## answer -/

@[simp] theorem State.answer_mem (s : State) (r : BusRead) : (s.answer r).mem = s.mem := rfl
@[simp] theorem State.answer_rq (s : State) (r : BusRead) : (s.answer r).rq = s.rq := rfl
@[simp] theorem State.answer_kq (s : State) (r : BusRead) : (s.answer r).kq = s.kq := rfl
@[simp] theorem State.answer_cb (s : State) (r : BusRead) : (s.answer r).cb = s.cb := rfl
@[simp] theorem State.answer_disks (s : State) (r : BusRead) : (s.answer r).disks = s.disks := rfl
@[simp] theorem State.answer_scratch (s : State) (r : BusRead) : (s.answer r).scratch = s.scratch := rfl
@[simp] theorem State.answer_halt (s : State) (r : BusRead) : (s.answer r).halt = s.halt := rfl
@[simp] theorem State.answer_console (s : State) (r : BusRead) : (s.answer r).console = s.console := rfl
@[simp] theorem State.answer_log (s : State) (r : BusRead) : (s.answer r).log = s.log := rfl
@[simp] theorem State.answer_storeWriteMayFail (s : State) (r : BusRead) :
    (s.answer r).storeWriteMayFail = s.storeWriteMayFail := rfl
@[simp] theorem State.answer_pending (s : State) (r : BusRead) : (s.answer r).pending = s.pending := rfl
@[simp] theorem State.answer_returned (s : State) (r : BusRead) : (s.answer r).returned = s.returned ++ [r] := rfl
@[simp] theorem State.answer_draws (s : State) (r : BusRead) : (s.answer r).draws = s.draws := rfl

/-! ## emit -/

@[simp] theorem State.emit_mem (s : State) (b : Byte) : (s.emit b).mem = s.mem := rfl
@[simp] theorem State.emit_rq (s : State) (b : Byte) : (s.emit b).rq = s.rq := rfl
@[simp] theorem State.emit_kq (s : State) (b : Byte) : (s.emit b).kq = s.kq := rfl
@[simp] theorem State.emit_cb (s : State) (b : Byte) : (s.emit b).cb = s.cb := rfl
@[simp] theorem State.emit_disks (s : State) (b : Byte) : (s.emit b).disks = s.disks := rfl
@[simp] theorem State.emit_scratch (s : State) (b : Byte) : (s.emit b).scratch = s.scratch := rfl
@[simp] theorem State.emit_halt (s : State) (b : Byte) : (s.emit b).halt = s.halt := rfl
@[simp] theorem State.emit_console (s : State) (b : Byte) : (s.emit b).console = s.console ++ [b] := rfl
@[simp] theorem State.emit_log (s : State) (b : Byte) : (s.emit b).log = s.log := rfl
@[simp] theorem State.emit_storeWriteMayFail (s : State) (b : Byte) :
    (s.emit b).storeWriteMayFail = s.storeWriteMayFail := rfl
@[simp] theorem State.emit_pending (s : State) (b : Byte) : (s.emit b).pending = s.pending := rfl
@[simp] theorem State.emit_returned (s : State) (b : Byte) : (s.emit b).returned = s.returned := rfl
@[simp] theorem State.emit_draws (s : State) (b : Byte) : (s.emit b).draws = s.draws := rfl

/-! ## pushKey -/

@[simp] theorem State.pushKey_mem (s : State) (b : Byte) : (s.pushKey b).mem = s.mem := rfl
@[simp] theorem State.pushKey_rq (s : State) (b : Byte) : (s.pushKey b).rq = s.rq := rfl
@[simp] theorem State.pushKey_kq (s : State) (b : Byte) : (s.pushKey b).kq = s.kq ++ [b] := rfl
@[simp] theorem State.pushKey_cb (s : State) (b : Byte) : (s.pushKey b).cb = s.cb := rfl
@[simp] theorem State.pushKey_disks (s : State) (b : Byte) : (s.pushKey b).disks = s.disks := rfl
@[simp] theorem State.pushKey_scratch (s : State) (b : Byte) : (s.pushKey b).scratch = s.scratch := rfl
@[simp] theorem State.pushKey_halt (s : State) (b : Byte) : (s.pushKey b).halt = s.halt := rfl
@[simp] theorem State.pushKey_console (s : State) (b : Byte) : (s.pushKey b).console = s.console := rfl
@[simp] theorem State.pushKey_log (s : State) (b : Byte) : (s.pushKey b).log = s.log := rfl
@[simp] theorem State.pushKey_storeWriteMayFail (s : State) (b : Byte) :
    (s.pushKey b).storeWriteMayFail = s.storeWriteMayFail := rfl
@[simp] theorem State.pushKey_pending (s : State) (b : Byte) : (s.pushKey b).pending = s.pending := rfl
@[simp] theorem State.pushKey_returned (s : State) (b : Byte) : (s.pushKey b).returned = s.returned := rfl
@[simp] theorem State.pushKey_draws (s : State) (b : Byte) : (s.pushKey b).draws = s.draws := rfl

/-! ## appendCommand -/

@[simp] theorem State.appendCommand_mem (s : State) (v : Byte) : (s.appendCommand v).mem = s.mem := rfl
@[simp] theorem State.appendCommand_rq (s : State) (v : Byte) : (s.appendCommand v).rq = s.rq := rfl
@[simp] theorem State.appendCommand_kq (s : State) (v : Byte) : (s.appendCommand v).kq = s.kq := rfl
@[simp] theorem State.appendCommand_cb (s : State) (v : Byte) : (s.appendCommand v).cb = s.cb ++ [v] := rfl
@[simp] theorem State.appendCommand_disks (s : State) (v : Byte) : (s.appendCommand v).disks = s.disks := rfl
@[simp] theorem State.appendCommand_scratch (s : State) (v : Byte) : (s.appendCommand v).scratch = s.scratch := rfl
@[simp] theorem State.appendCommand_halt (s : State) (v : Byte) : (s.appendCommand v).halt = s.halt := rfl
@[simp] theorem State.appendCommand_console (s : State) (v : Byte) : (s.appendCommand v).console = s.console := rfl
@[simp] theorem State.appendCommand_log (s : State) (v : Byte) : (s.appendCommand v).log = s.log := rfl
@[simp] theorem State.appendCommand_storeWriteMayFail (s : State) (v : Byte) :
    (s.appendCommand v).storeWriteMayFail = s.storeWriteMayFail := rfl
@[simp] theorem State.appendCommand_pending (s : State) (v : Byte) : (s.appendCommand v).pending = s.pending := rfl
@[simp] theorem State.appendCommand_returned (s : State) (v : Byte) : (s.appendCommand v).returned = s.returned := rfl
@[simp] theorem State.appendCommand_draws (s : State) (v : Byte) : (s.appendCommand v).draws = s.draws := rfl

/-! ## splice -/

@[simp] theorem State.splice_mem (s : State) (n : Nat) : (s.splice n).mem = s.mem := rfl
@[simp] theorem State.splice_rq (s : State) (n : Nat) : (s.splice n).rq = s.rq := rfl
@[simp] theorem State.splice_kq (s : State) (n : Nat) : (s.splice n).kq = s.kq := rfl
@[simp] theorem State.splice_cb (s : State) (n : Nat) : (s.splice n).cb = s.cb.drop n := rfl
@[simp] theorem State.splice_disks (s : State) (n : Nat) : (s.splice n).disks = s.disks := rfl
@[simp] theorem State.splice_scratch (s : State) (n : Nat) : (s.splice n).scratch = s.scratch := rfl
@[simp] theorem State.splice_halt (s : State) (n : Nat) : (s.splice n).halt = s.halt := rfl
@[simp] theorem State.splice_console (s : State) (n : Nat) : (s.splice n).console = s.console := rfl
@[simp] theorem State.splice_log (s : State) (n : Nat) : (s.splice n).log = s.log := rfl
@[simp] theorem State.splice_storeWriteMayFail (s : State) (n : Nat) :
    (s.splice n).storeWriteMayFail = s.storeWriteMayFail := rfl
@[simp] theorem State.splice_pending (s : State) (n : Nat) : (s.splice n).pending = s.pending := rfl
@[simp] theorem State.splice_returned (s : State) (n : Nat) : (s.splice n).returned = s.returned := rfl
@[simp] theorem State.splice_draws (s : State) (n : Nat) : (s.splice n).draws = s.draws := rfl

/-! ## fillScratch -/

@[simp] theorem State.fillScratch_mem (s : State) (bs : List Byte) : (s.fillScratch bs).mem = s.mem := rfl
@[simp] theorem State.fillScratch_rq (s : State) (bs : List Byte) : (s.fillScratch bs).rq = s.rq := rfl
@[simp] theorem State.fillScratch_kq (s : State) (bs : List Byte) : (s.fillScratch bs).kq = s.kq := rfl
@[simp] theorem State.fillScratch_cb (s : State) (bs : List Byte) : (s.fillScratch bs).cb = s.cb := rfl
@[simp] theorem State.fillScratch_disks (s : State) (bs : List Byte) : (s.fillScratch bs).disks = s.disks := rfl
@[simp] theorem State.fillScratch_scratch (s : State) (bs : List Byte) : (s.fillScratch bs).scratch = bs := rfl
@[simp] theorem State.fillScratch_halt (s : State) (bs : List Byte) : (s.fillScratch bs).halt = s.halt := rfl
@[simp] theorem State.fillScratch_console (s : State) (bs : List Byte) : (s.fillScratch bs).console = s.console := rfl
@[simp] theorem State.fillScratch_log (s : State) (bs : List Byte) : (s.fillScratch bs).log = s.log := rfl
@[simp] theorem State.fillScratch_storeWriteMayFail (s : State) (bs : List Byte) :
    (s.fillScratch bs).storeWriteMayFail = s.storeWriteMayFail := rfl
@[simp] theorem State.fillScratch_pending (s : State) (bs : List Byte) : (s.fillScratch bs).pending = s.pending := rfl
@[simp] theorem State.fillScratch_returned (s : State) (bs : List Byte) :
    (s.fillScratch bs).returned = s.returned := rfl
@[simp] theorem State.fillScratch_draws (s : State) (bs : List Byte) : (s.fillScratch bs).draws = s.draws := rfl

/-! ## loseScratch -/

@[simp] theorem State.loseScratch_mem (s : State) : (s.loseScratch).mem = s.mem := rfl
@[simp] theorem State.loseScratch_rq (s : State) : (s.loseScratch).rq = s.rq := rfl
@[simp] theorem State.loseScratch_kq (s : State) : (s.loseScratch).kq = s.kq := rfl
@[simp] theorem State.loseScratch_cb (s : State) : (s.loseScratch).cb = s.cb := rfl
@[simp] theorem State.loseScratch_disks (s : State) : (s.loseScratch).disks = s.disks := rfl
@[simp] theorem State.loseScratch_scratch (s : State) :
    (s.loseScratch).scratch = (List.range Config.sectorSize).map (Config.freeScratchByte s.draws) := rfl
@[simp] theorem State.loseScratch_halt (s : State) : (s.loseScratch).halt = s.halt := rfl
@[simp] theorem State.loseScratch_console (s : State) : (s.loseScratch).console = s.console := rfl
@[simp] theorem State.loseScratch_log (s : State) : (s.loseScratch).log = s.log := rfl
@[simp] theorem State.loseScratch_storeWriteMayFail (s : State) :
    (s.loseScratch).storeWriteMayFail = s.storeWriteMayFail := rfl
@[simp] theorem State.loseScratch_pending (s : State) : (s.loseScratch).pending = s.pending := rfl
@[simp] theorem State.loseScratch_returned (s : State) : (s.loseScratch).returned = s.returned := rfl
@[simp] theorem State.loseScratch_draws (s : State) : (s.loseScratch).draws = s.draws + 1 := rfl

/-! ## scratchToMemory -/

@[simp] theorem State.scratchToMemory_mem (s : State) (a : U16) :
    (s.scratchToMemory a).mem = Memory.writeRange s.mem a.toNat s.scratch := rfl
@[simp] theorem State.scratchToMemory_rq (s : State) (a : U16) : (s.scratchToMemory a).rq = s.rq := rfl
@[simp] theorem State.scratchToMemory_kq (s : State) (a : U16) : (s.scratchToMemory a).kq = s.kq := rfl
@[simp] theorem State.scratchToMemory_cb (s : State) (a : U16) : (s.scratchToMemory a).cb = s.cb := rfl
@[simp] theorem State.scratchToMemory_disks (s : State) (a : U16) : (s.scratchToMemory a).disks = s.disks := rfl
@[simp] theorem State.scratchToMemory_scratch (s : State) (a : U16) : (s.scratchToMemory a).scratch = s.scratch := rfl
@[simp] theorem State.scratchToMemory_halt (s : State) (a : U16) : (s.scratchToMemory a).halt = s.halt := rfl
@[simp] theorem State.scratchToMemory_console (s : State) (a : U16) : (s.scratchToMemory a).console = s.console := rfl
@[simp] theorem State.scratchToMemory_log (s : State) (a : U16) : (s.scratchToMemory a).log = s.log := rfl
@[simp] theorem State.scratchToMemory_storeWriteMayFail (s : State) (a : U16) :
    (s.scratchToMemory a).storeWriteMayFail = s.storeWriteMayFail := rfl
@[simp] theorem State.scratchToMemory_pending (s : State) (a : U16) : (s.scratchToMemory a).pending = s.pending := rfl
@[simp] theorem State.scratchToMemory_returned (s : State) (a : U16) :
    (s.scratchToMemory a).returned = s.returned := rfl
@[simp] theorem State.scratchToMemory_draws (s : State) (a : U16) : (s.scratchToMemory a).draws = s.draws := rfl

/-! ## memoryToScratch -/

@[simp] theorem State.memoryToScratch_mem (s : State) (a : U16) : (s.memoryToScratch a).mem = s.mem := rfl
@[simp] theorem State.memoryToScratch_rq (s : State) (a : U16) : (s.memoryToScratch a).rq = s.rq := rfl
@[simp] theorem State.memoryToScratch_kq (s : State) (a : U16) : (s.memoryToScratch a).kq = s.kq := rfl
@[simp] theorem State.memoryToScratch_cb (s : State) (a : U16) : (s.memoryToScratch a).cb = s.cb := rfl
@[simp] theorem State.memoryToScratch_disks (s : State) (a : U16) : (s.memoryToScratch a).disks = s.disks := rfl
@[simp] theorem State.memoryToScratch_scratch (s : State) (a : U16) :
    (s.memoryToScratch a).scratch = Memory.readRange s.mem a.toNat Config.sectorSize := rfl
@[simp] theorem State.memoryToScratch_halt (s : State) (a : U16) : (s.memoryToScratch a).halt = s.halt := rfl
@[simp] theorem State.memoryToScratch_console (s : State) (a : U16) : (s.memoryToScratch a).console = s.console := rfl
@[simp] theorem State.memoryToScratch_log (s : State) (a : U16) : (s.memoryToScratch a).log = s.log := rfl
@[simp] theorem State.memoryToScratch_storeWriteMayFail (s : State) (a : U16) :
    (s.memoryToScratch a).storeWriteMayFail = s.storeWriteMayFail := rfl
@[simp] theorem State.memoryToScratch_pending (s : State) (a : U16) : (s.memoryToScratch a).pending = s.pending := rfl
@[simp] theorem State.memoryToScratch_returned (s : State) (a : U16) :
    (s.memoryToScratch a).returned = s.returned := rfl
@[simp] theorem State.memoryToScratch_draws (s : State) (a : U16) : (s.memoryToScratch a).draws = s.draws := rfl

/-! ## warn -/

@[simp] theorem State.warn_mem (s : State) (pa : Byte) : (s.warn pa).mem = s.mem := rfl
@[simp] theorem State.warn_rq (s : State) (pa : Byte) : (s.warn pa).rq = s.rq := rfl
@[simp] theorem State.warn_kq (s : State) (pa : Byte) : (s.warn pa).kq = s.kq := rfl
@[simp] theorem State.warn_cb (s : State) (pa : Byte) : (s.warn pa).cb = s.cb := rfl
@[simp] theorem State.warn_disks (s : State) (pa : Byte) : (s.warn pa).disks = s.disks := rfl
@[simp] theorem State.warn_scratch (s : State) (pa : Byte) : (s.warn pa).scratch = s.scratch := rfl
@[simp] theorem State.warn_halt (s : State) (pa : Byte) : (s.warn pa).halt = s.halt := rfl
@[simp] theorem State.warn_console (s : State) (pa : Byte) : (s.warn pa).console = s.console := rfl
@[simp] theorem State.warn_log (s : State) (pa : Byte) : (s.warn pa).log = s.log ++ [.unmappedPortRead pa] := rfl
@[simp] theorem State.warn_storeWriteMayFail (s : State) (pa : Byte) :
    (s.warn pa).storeWriteMayFail = s.storeWriteMayFail := rfl
@[simp] theorem State.warn_pending (s : State) (pa : Byte) : (s.warn pa).pending = s.pending := rfl
@[simp] theorem State.warn_returned (s : State) (pa : Byte) : (s.warn pa).returned = s.returned := rfl
@[simp] theorem State.warn_draws (s : State) (pa : Byte) : (s.warn pa).draws = s.draws := rfl

/-! ## raise -/

@[simp] theorem State.raise_mem (s : State) (c : FaultCause) : (s.raise c).mem = s.mem := rfl
@[simp] theorem State.raise_rq (s : State) (c : FaultCause) : (s.raise c).rq = s.rq := rfl
@[simp] theorem State.raise_kq (s : State) (c : FaultCause) : (s.raise c).kq = s.kq := rfl
@[simp] theorem State.raise_cb (s : State) (c : FaultCause) : (s.raise c).cb = s.cb := rfl
@[simp] theorem State.raise_disks (s : State) (c : FaultCause) : (s.raise c).disks = s.disks := rfl
@[simp] theorem State.raise_scratch (s : State) (c : FaultCause) : (s.raise c).scratch = s.scratch := rfl
@[simp] theorem State.raise_halt (s : State) (c : FaultCause) : (s.raise c).halt = some c := rfl
@[simp] theorem State.raise_console (s : State) (c : FaultCause) : (s.raise c).console = s.console := rfl
@[simp] theorem State.raise_log (s : State) (c : FaultCause) : (s.raise c).log = s.log ++ [.fatal c] := rfl
@[simp] theorem State.raise_storeWriteMayFail (s : State) (c : FaultCause) :
    (s.raise c).storeWriteMayFail = s.storeWriteMayFail := rfl
@[simp] theorem State.raise_pending (s : State) (c : FaultCause) : (s.raise c).pending = s.pending := rfl
@[simp] theorem State.raise_returned (s : State) (c : FaultCause) : (s.raise c).returned = s.returned := rfl
@[simp] theorem State.raise_draws (s : State) (c : FaultCause) : (s.raise c).draws = s.draws := rfl

/-! ## storeSync -/

@[simp] theorem State.storeSync_mem (s : State) (d : Byte) : (s.storeSync d).mem = s.mem := rfl
@[simp] theorem State.storeSync_rq (s : State) (d : Byte) : (s.storeSync d).rq = s.rq := rfl
@[simp] theorem State.storeSync_kq (s : State) (d : Byte) : (s.storeSync d).kq = s.kq := rfl
@[simp] theorem State.storeSync_cb (s : State) (d : Byte) : (s.storeSync d).cb = s.cb := rfl
@[simp] theorem State.storeSync_disks (s : State) (d : Byte) : (s.storeSync d).disks = s.disks := rfl
@[simp] theorem State.storeSync_scratch (s : State) (d : Byte) : (s.storeSync d).scratch = s.scratch := rfl
@[simp] theorem State.storeSync_halt (s : State) (d : Byte) : (s.storeSync d).halt = s.halt := rfl
@[simp] theorem State.storeSync_console (s : State) (d : Byte) : (s.storeSync d).console = s.console := rfl
@[simp] theorem State.storeSync_log (s : State) (d : Byte) : (s.storeSync d).log = s.log := rfl
@[simp] theorem State.storeSync_storeWriteMayFail (s : State) (d : Byte) :
    (s.storeSync d).storeWriteMayFail = s.storeWriteMayFail := rfl
@[simp] theorem State.storeSync_pending (s : State) (d : Byte) : (s.storeSync d).pending = s.pending := rfl
@[simp] theorem State.storeSync_returned (s : State) (d : Byte) : (s.storeSync d).returned = s.returned := rfl
@[simp] theorem State.storeSync_draws (s : State) (d : Byte) : (s.storeSync d).draws = s.draws := rfl

/-! ## storeWrite -/

@[simp] theorem State.storeWrite_mem (s : State) (k : Nat) (dk : Disk) (off : Nat) (bs : List Byte) :
    (s.storeWrite k dk off bs).mem = s.mem := rfl
@[simp] theorem State.storeWrite_rq (s : State) (k : Nat) (dk : Disk) (off : Nat) (bs : List Byte) :
    (s.storeWrite k dk off bs).rq = s.rq := rfl
@[simp] theorem State.storeWrite_kq (s : State) (k : Nat) (dk : Disk) (off : Nat) (bs : List Byte) :
    (s.storeWrite k dk off bs).kq = s.kq := rfl
@[simp] theorem State.storeWrite_cb (s : State) (k : Nat) (dk : Disk) (off : Nat) (bs : List Byte) :
    (s.storeWrite k dk off bs).cb = s.cb := rfl
@[simp] theorem State.storeWrite_disks (s : State) (k : Nat) (dk : Disk) (off : Nat) (bs : List Byte) :
    (s.storeWrite k dk off bs).disks = s.disks.set k (if s.storeCount bs.length = bs.length then Disk.write dk s.draws off bs
      else Disk.writeShort dk s.draws off bs.length) := rfl
@[simp] theorem State.storeWrite_scratch (s : State) (k : Nat) (dk : Disk) (off : Nat) (bs : List Byte) :
    (s.storeWrite k dk off bs).scratch = s.scratch := rfl
@[simp] theorem State.storeWrite_halt (s : State) (k : Nat) (dk : Disk) (off : Nat) (bs : List Byte) :
    (s.storeWrite k dk off bs).halt = s.halt := rfl
@[simp] theorem State.storeWrite_console (s : State) (k : Nat) (dk : Disk) (off : Nat) (bs : List Byte) :
    (s.storeWrite k dk off bs).console = s.console := rfl
@[simp] theorem State.storeWrite_log (s : State) (k : Nat) (dk : Disk) (off : Nat) (bs : List Byte) :
    (s.storeWrite k dk off bs).log = s.log := rfl
@[simp] theorem State.storeWrite_storeWriteMayFail (s : State) (k : Nat) (dk : Disk) (off : Nat) (bs : List Byte) :
    (s.storeWrite k dk off bs).storeWriteMayFail = s.storeWriteMayFail := rfl
@[simp] theorem State.storeWrite_pending (s : State) (k : Nat) (dk : Disk) (off : Nat) (bs : List Byte) :
    (s.storeWrite k dk off bs).pending = s.pending := rfl
@[simp] theorem State.storeWrite_returned (s : State) (k : Nat) (dk : Disk) (off : Nat) (bs : List Byte) :
    (s.storeWrite k dk off bs).returned = s.returned := rfl
@[simp] theorem State.storeWrite_draws (s : State) (k : Nat) (dk : Disk) (off : Nat) (bs : List Byte) :
    (s.storeWrite k dk off bs).draws = s.draws + 1 := rfl

end Sys2Proof.Machine
end

