-- ==== Sys2Proof/Laws/Store.lean ====
section
/-! SUPPORT. What a disk reads as after a write, a gap, a short write; and its canonical form. -/

namespace Sys2Proof.Machine

/-! ## Intervals -/

theorem Hole.drawAt_append (hs hs' : List Hole) (o : Nat) :
    Hole.drawAt (hs ++ hs') o = (Hole.drawAt hs o).or (Hole.drawAt hs' o) := by
  simp only [Hole.drawAt, List.find?_append]
  cases hs.find? (Hole.covers · o) <;> simp

theorem Hole.drawAt_cons (h : Hole) (hs : List Hole) (o : Nat) :
    Hole.drawAt (h :: hs) o = if h.lo ≤ o ∧ o < h.hi then some h.draw else Hole.drawAt hs o := by
  by_cases hc : h.lo ≤ o ∧ o < h.hi
  · simp [Hole.drawAt, Hole.covers, hc]
  · rw [if_neg hc, Hole.drawAt, List.find?_cons_of_neg (by simp [Hole.covers]; omega)]
    rfl

theorem Hole.drawAt_eq_none {hs : List Hole} {o : Nat} (hno : ∀ h ∈ hs, ¬ (h.lo ≤ o ∧ o < h.hi)) :
    Hole.drawAt hs o = none := by
  induction hs with
  | nil => rfl
  | cons h hs ih =>
    rw [Hole.drawAt_cons, if_neg (hno h (by simp)), ih fun h' hh' => hno h' (List.mem_cons_of_mem _ hh')]

theorem Hole.drawAt_below (hs : List Hole) (n o : Nat) :
    Hole.drawAt (hs.filterMap (Hole.below n)) o = if o < n then Hole.drawAt hs o else none := by
  induction hs with
  | nil => simp [Hole.drawAt]
  | cons h hs ih =>
    by_cases hlo : h.lo < n
    · rw [List.filterMap_cons_some (b := { h with hi := min h.hi n }) (by simp [Hole.below, hlo]), Hole.drawAt_cons,
        Hole.drawAt_cons, ih]
      split <;> split <;> simp_all <;> omega
    · rw [List.filterMap_cons_none (by simp [Hole.below, hlo]), ih, Hole.drawAt_cons]
      repeat' split
      all_goals first | rfl | omega

theorem Hole.drawAt_above (hs : List Hole) (n o : Nat) :
    Hole.drawAt (hs.filterMap (Hole.above n)) o = if n ≤ o then Hole.drawAt hs o else none := by
  induction hs with
  | nil => simp [Hole.drawAt]
  | cons h hs ih =>
    by_cases hhi : n < h.hi
    · rw [List.filterMap_cons_some (b := { h with lo := max h.lo n }) (by simp [Hole.above, hhi]), Hole.drawAt_cons,
        Hole.drawAt_cons, ih]
      split <;> split <;> simp_all <;> omega
    · rw [List.filterMap_cons_none (by simp [Hole.above, hhi]), ih, Hole.drawAt_cons]
      repeat' split
      all_goals first | rfl | omega

/-- The intervals left when the window `lo ..< hi` is taken out. -/
theorem Hole.drawAt_carve (hs : List Hole) {lo hi : Nat} (hle : lo ≤ hi) (o : Nat) :
    Hole.drawAt (hs.filterMap (Hole.below lo) ++ hs.filterMap (Hole.above hi)) o =
      if lo ≤ o ∧ o < hi then none else Hole.drawAt hs o := by
  rw [Hole.drawAt_append, Hole.drawAt_below, Hole.drawAt_above]
  split <;> split <;> split <;> simp <;> omega

theorem Hole.mem_below {hs : List Hole} {n : Nat} {h : Hole} (hh : h ∈ hs.filterMap (Hole.below n)) :
    ∃ h' ∈ hs, h'.lo < n ∧ h = { h' with hi := min h'.hi n } := by
  simp only [List.mem_filterMap, Hole.below, Option.ite_none_right_eq_some, Option.some.injEq] at hh
  obtain ⟨h', hm, hlt, he⟩ := hh
  exact ⟨h', hm, hlt, he.symm⟩

theorem Hole.mem_above {hs : List Hole} {n : Nat} {h : Hole} (hh : h ∈ hs.filterMap (Hole.above n)) :
    ∃ h' ∈ hs, n < h'.hi ∧ h = { h' with lo := max h'.lo n } := by
  simp only [List.mem_filterMap, Hole.above, Option.ite_none_right_eq_some, Option.some.injEq] at hh
  obtain ⟨h', hm, hlt, he⟩ := hh
  exact ⟨h', hm, hlt, he.symm⟩

/-! ## Reading -/

@[simp] theorem Disk.read_length (dk : Disk) (off n : Nat) : (Disk.read dk off n).length = min n (dk.len - off) := by
  simp [Disk.read]

theorem Disk.read_getElem (dk : Disk) (off n i : Nat) (h : i < (Disk.read dk off n).length) :
    (Disk.read dk off n)[i] = Disk.byte dk (off + i) := by
  simp [Disk.read]

/-- A read is whole exactly when the disk reaches that far (20_memory.md R40). -/
theorem Disk.read_whole_iff (dk : Disk) (off n : Nat) (hn : 0 < n) :
    (Disk.read dk off n).length = n ↔ off + n ≤ dk.len := by
  rw [Disk.read_length]
  omega

theorem Disk.read_congr {dk dk' : Disk} {off n : Nat} (h : off + n ≤ dk.len) (h' : off + n ≤ dk'.len)
    (hb : ∀ o, off ≤ o → o < off + n → Disk.byte dk o = Disk.byte dk' o) : Disk.read dk off n = Disk.read dk' off n := by
  apply List.ext_getElem
  · rw [Disk.read_length, Disk.read_length]; omega
  · intro i h₁ h₂
    rw [Disk.read_length] at h₁
    rw [Disk.read_getElem, Disk.read_getElem, hb _ (by omega) (by omega)]

/-! ## Writing -/

@[simp] theorem Disk.writeAt_len (dk : Disk) (off : Nat) (bs : List Byte) :
    (Disk.writeAt dk off bs).len = max dk.len (off + bs.length) := rfl

theorem Disk.byte_writeAt_in (dk : Disk) (off i : Nat) (bs : List Byte) (h : i < bs.length) :
    Disk.byte (Disk.writeAt dk off bs) (off + i) = bs[i] := by
  simp only [Disk.byte, Disk.writeAt, Hole.drawAt_carve _ (Nat.le_add_right _ _)]
  rw [if_pos (by omega), Cells.get_setRange_in _ _ _ _ h]

theorem Disk.byte_writeAt_out (dk : Disk) (off o : Nat) (bs : List Byte) (h : ¬ (off ≤ o ∧ o < off + bs.length)) :
    Disk.byte (Disk.writeAt dk off bs) o = Disk.byte dk o := by
  simp only [Disk.byte, Disk.writeAt, Hole.drawAt_carve _ (Nat.le_add_right _ _)]
  rw [if_neg h, Cells.get_setRange_out _ _ _ _ (by omega)]

@[simp] theorem Disk.punch_len (dk : Disk) (k lo hi : Nat) : (Disk.punch dk k lo hi).len = max dk.len hi := rfl

theorem Disk.byte_punch_in (dk : Disk) (k lo hi o : Nat) (h : lo ≤ o ∧ o < hi) :
    Disk.byte (Disk.punch dk k lo hi) o = Config.freeDiskByte k o := by
  simp only [Disk.byte, Disk.punch, Hole.drawAt_append, Hole.drawAt_below, Hole.drawAt_cons]
  rw [if_neg (by omega), if_pos h]
  rfl

theorem Disk.byte_punch_out (dk : Disk) (k lo hi o : Nat) (hle : lo ≤ hi) (h : ¬ (lo ≤ o ∧ o < hi)) :
    Disk.byte (Disk.punch dk k lo hi) o = Disk.byte dk o := by
  have hd : Hole.drawAt (Disk.punch dk k lo hi).holes o = Hole.drawAt dk.holes o := by
    simp only [Disk.punch, Hole.drawAt_append, Hole.drawAt_below, Hole.drawAt_cons]
    rw [if_neg (c := lo ≤ o ∧ o < hi) h, Hole.drawAt_above]
    repeat' split
    all_goals first | omega | simp
  rw [Disk.byte, hd, Disk.byte]
  split
  · rfl
  · exact Cells.get_filter fun c _ hc => by simp; omega

@[simp] theorem Disk.truncate_len (dk : Disk) (n : Nat) : (Disk.truncate dk n).len = n := rfl

theorem Disk.byte_truncate (dk : Disk) (n o : Nat) (h : o < n) : Disk.byte (Disk.truncate dk n) o = Disk.byte dk o := by
  simp only [Disk.byte, Disk.truncate, Hole.drawAt_below]
  rw [if_pos h]
  split
  · rfl
  · exact Cells.get_filter fun c _ hc => by simp; omega

/-- A full store write reaches at least to the end of its window (20_memory.md R41). -/
@[simp] theorem Disk.write_len (dk : Disk) (k off : Nat) (bs : List Byte) :
    (Disk.write dk k off bs).len = max dk.len (off + bs.length) := by
  rw [Disk.write, Disk.writeAt_len]
  split
  · simp only [Disk.punch_len]; omega
  · rfl

theorem Disk.byte_write_in (dk : Disk) (k off i : Nat) (bs : List Byte) (h : i < bs.length) :
    Disk.byte (Disk.write dk k off bs) (off + i) = bs[i] :=
  Disk.byte_writeAt_in _ _ _ _ h

/-- A gap byte is a free value (R41). -/
theorem Disk.byte_write_gap (dk : Disk) (k off o : Nat) (bs : List Byte) (h : dk.len ≤ o ∧ o < off) :
    Disk.byte (Disk.write dk k off bs) o = Config.freeDiskByte k o := by
  rw [Disk.write, Disk.byte_writeAt_out _ _ _ _ (by omega), if_pos (by omega), Disk.byte_punch_in _ _ _ _ _ h]

theorem Disk.byte_write_out (dk : Disk) (k off o : Nat) (bs : List Byte) (h : ¬ (off ≤ o ∧ o < off + bs.length))
    (hg : ¬ (dk.len ≤ o ∧ o < off)) : Disk.byte (Disk.write dk k off bs) o = Disk.byte dk o := by
  rw [Disk.write, Disk.byte_writeAt_out _ _ _ _ h]
  split
  · exact Disk.byte_punch_out _ _ _ _ _ (by omega) hg
  · rfl

/-- A read of the window of a full store write gives what was written. -/
theorem Disk.read_write (dk : Disk) (k off : Nat) (bs : List Byte) :
    Disk.read (Disk.write dk k off bs) off bs.length = bs := by
  apply List.ext_getElem
  · rw [Disk.read_length, Disk.write_len]; omega
  · intro i h₁ h₂
    rw [Disk.read_getElem, Disk.byte_write_in _ _ _ _ _ h₂]

theorem Disk.keptLength_le_writeShort_len (dk : Disk) (k off n : Nat) :
    Disk.keptLength dk off n ≤ (Disk.writeShort dk k off n).len := by
  simp only [Disk.writeShort]
  split
  · simp only [Disk.truncate_len]; omega
  · simp only [Disk.punch_len]; omega

/-- A byte that stood outside the window of a short write stays (60_exceptions.md R126). -/
theorem Disk.byte_writeShort_out (dk : Disk) (k off n o : Nat) (ho : o < dk.len) (h : ¬ (off ≤ o ∧ o < off + n)) :
    o < (Disk.writeShort dk k off n).len ∧ Disk.byte (Disk.writeShort dk k off n) o = Disk.byte dk o := by
  have hkeep : o < Disk.keptLength dk off n := by
    unfold Disk.keptLength
    split <;> omega
  refine ⟨Nat.lt_of_lt_of_le hkeep (Disk.keptLength_le_writeShort_len dk k off n), ?_⟩
  have hp : Disk.byte (Disk.punch dk k (min dk.len off) (off + n)) o = Disk.byte dk o :=
    Disk.byte_punch_out _ _ _ _ _ (by omega) (by omega)
  simp only [Disk.writeShort]
  split
  · rw [Disk.byte_truncate _ _ _ (by omega), hp]
  · rw [Disk.byte_punch_out _ _ _ _ _ (by omega) (by simp only [Disk.punch_len]; omega), hp]

/-! ## The canonical form -/

theorem Disk.carve_wf {hs : List Hole} {len lo hi : Nat} (hle : lo ≤ hi)
    (hp : hs.Pairwise (fun h h' => h.hi ≤ h'.lo)) (hin : ∀ h ∈ hs, h.lo < h.hi ∧ h.hi ≤ len) :
    (hs.filterMap (Hole.below lo)).Pairwise (fun h h' => h.hi ≤ h'.lo) ∧
    (hs.filterMap (Hole.above hi)).Pairwise (fun h h' => h.hi ≤ h'.lo) ∧
    (∀ h ∈ hs.filterMap (Hole.below lo), h.lo < h.hi ∧ h.hi ≤ len ∧ h.hi ≤ lo) ∧
    (∀ h ∈ hs.filterMap (Hole.above hi), h.lo < h.hi ∧ h.hi ≤ len ∧ hi ≤ h.lo) := by
  refine ⟨?_, ?_, ?_, ?_⟩
  · refine List.Pairwise.filterMap _ (fun h h' hR b hb b' hb' => ?_) hp
    simp only [Hole.below, Option.ite_none_right_eq_some, Option.some.injEq] at hb hb'
    obtain ⟨_, rfl⟩ := hb
    obtain ⟨_, rfl⟩ := hb'
    simp only
    omega
  · refine List.Pairwise.filterMap _ (fun h h' hR b hb b' hb' => ?_) hp
    simp only [Hole.above, Option.ite_none_right_eq_some, Option.some.injEq] at hb hb'
    obtain ⟨_, rfl⟩ := hb
    obtain ⟨_, rfl⟩ := hb'
    simp only
    omega
  · intro h hh
    obtain ⟨h', hm, hlt, rfl⟩ := Hole.mem_below hh
    have := hin h' hm
    simp only
    omega
  · intro h hh
    obtain ⟨h', hm, hlt, rfl⟩ := Hole.mem_above hh
    have := hin h' hm
    simp only
    omega

theorem Disk.writeAt_wf {dk : Disk} (h : Disk.wf dk) (off : Nat) (bs : List Byte) : Disk.wf (Disk.writeAt dk off bs) := by
  obtain ⟨hc, hlen, hdis, hp, hin⟩ := h
  obtain ⟨p1, p2, b1, b2⟩ := Disk.carve_wf (Nat.le_add_right off bs.length) hp hin
  refine ⟨Cells.setRange_wf hc _ _, fun c hm => ?_, fun c hm h hh => ?_, ?_, fun h hh => ?_⟩
  · simp only [Disk.writeAt_len]
    rcases Cells.mem_setRange hm with hm | ⟨hm, _⟩
    · omega
    · have := hlen c hm; omega
  · rcases List.mem_append.1 hh with hh' | hh'
    · have hb := b1 h hh'
      obtain ⟨h', hm', _, rfl⟩ := Hole.mem_below hh'
      rcases Cells.mem_setRange hm with hm | ⟨hm, _⟩
      · simp only at hb ⊢; omega
      · have := hdis c hm h' hm'; simp only at hb ⊢; omega
    · have hb := b2 h hh'
      obtain ⟨h', hm', _, rfl⟩ := Hole.mem_above hh'
      rcases Cells.mem_setRange hm with hm | ⟨hm, _⟩
      · simp only at hb ⊢; omega
      · have := hdis c hm h' hm'; simp only at hb ⊢; omega
  · refine List.pairwise_append.2 ⟨p1, p2, fun x hx y hy => ?_⟩
    have := b1 x hx
    have := b2 y hy
    omega
  · simp only [Disk.writeAt_len]
    rcases List.mem_append.1 hh with hh' | hh'
    · have := b1 h hh'; omega
    · have := b2 h hh'; omega

theorem Disk.punch_wf {dk : Disk} (h : Disk.wf dk) (k lo hi : Nat) (hlt : lo < hi) : Disk.wf (Disk.punch dk k lo hi) := by
  obtain ⟨hc, hlen, hdis, hp, hin⟩ := h
  obtain ⟨p1, p2, b1, b2⟩ := Disk.carve_wf (Nat.le_of_lt hlt) hp hin
  have hmem : ∀ c ∈ (Disk.punch dk k lo hi).cells, c ∈ dk.cells ∧ (c.1 < lo ∨ hi ≤ c.1) := by
    intro c hm
    simpa [Disk.punch] using hm
  refine ⟨Cells.filter_wf hc _, fun c hm => ?_, fun c hm h hh => ?_, ?_, fun h hh => ?_⟩
  · have := hlen c (hmem c hm).1
    simp only [Disk.punch_len]
    omega
  · obtain ⟨hm, hside⟩ := hmem c hm
    rcases List.mem_append.1 hh with hh' | hh'
    · obtain ⟨h', hm', _, rfl⟩ := Hole.mem_below hh'
      have := hdis c hm h' hm'
      simp only
      omega
    · rcases List.mem_cons.1 hh' with rfl | hh'
      · simp only; omega
      · obtain ⟨h', hm', _, rfl⟩ := Hole.mem_above hh'
        have := hdis c hm h' hm'
        simp only
        omega
  · refine List.pairwise_append.2 ⟨p1, List.pairwise_cons.2 ⟨fun y hy => (b2 y hy).2.2, p2⟩, fun x hx y hy => ?_⟩
    have := b1 x hx
    rcases List.mem_cons.1 hy with rfl | hy
    · simp only; omega
    · have := b2 y hy; omega
  · simp only [Disk.punch_len]
    rcases List.mem_append.1 hh with hh' | hh'
    · have := b1 h hh'; omega
    · rcases List.mem_cons.1 hh' with rfl | hh'
      · simp only; omega
      · have := b2 h hh'; omega

theorem Disk.truncate_wf {dk : Disk} (h : Disk.wf dk) (n : Nat) : Disk.wf (Disk.truncate dk n) := by
  obtain ⟨hc, hlen, hdis, hp, hin⟩ := h
  obtain ⟨p1, _, b1, _⟩ := Disk.carve_wf (Nat.le_refl n) hp hin
  refine ⟨Cells.filter_wf hc _, fun c hm => ?_, fun c hm h hh => ?_, p1, fun h hh => ?_⟩
  · simpa using (List.mem_filter.1 hm).2
  · obtain ⟨h', hm', _, rfl⟩ := Hole.mem_below hh
    have := hdis c (List.mem_filter.1 hm).1 h' hm'
    simp only
    omega
  · have := b1 h hh
    simp only [Disk.truncate_len]
    omega

theorem Disk.write_wf {dk : Disk} (h : Disk.wf dk) (k off : Nat) (bs : List Byte) : Disk.wf (Disk.write dk k off bs) := by
  unfold Disk.write
  split
  · exact Disk.writeAt_wf (Disk.punch_wf h _ _ _ (by omega)) _ _
  · exact Disk.writeAt_wf h _ _

theorem Disk.writeShort_wf {dk : Disk} (h : Disk.wf dk) (k off n : Nat) (hn : 0 < n) :
    Disk.wf (Disk.writeShort dk k off n) := by
  have hp := Disk.punch_wf h k (min dk.len off) (off + n) (by omega)
  simp only [Disk.writeShort]
  split
  · exact Disk.truncate_wf hp _
  · exact Disk.punch_wf hp _ _ _ (by omega)

theorem Disk.ofBytes_wf (bs : List Byte) : Disk.wf (Disk.ofBytes bs) :=
  Disk.writeAt_wf (by decide) _ _

/-! ## Draws -/

theorem Disk.writeAt_draws {dk : Disk} {off k : Nat} {bs : List Byte} (h : ∀ x ∈ dk.holes, x.draw < k) :
    ∀ x ∈ (Disk.writeAt dk off bs).holes, x.draw < k := by
  intro x hx
  rcases List.mem_append.1 hx with hx | hx
  · obtain ⟨y, hy, _, rfl⟩ := Hole.mem_below hx; exact h y hy
  · obtain ⟨y, hy, _, rfl⟩ := Hole.mem_above hx; exact h y hy

theorem Disk.punch_draws {dk : Disk} {j lo hi k : Nat} (hj : j < k) (h : ∀ x ∈ dk.holes, x.draw < k) :
    ∀ x ∈ (Disk.punch dk j lo hi).holes, x.draw < k := by
  intro x hx
  rcases List.mem_append.1 hx with hx | hx
  · obtain ⟨y, hy, _, rfl⟩ := Hole.mem_below hx; exact h y hy
  · rcases List.mem_cons.1 hx with rfl | hx
    · exact hj
    · obtain ⟨y, hy, _, rfl⟩ := Hole.mem_above hx; exact h y hy

theorem Disk.truncate_draws {dk : Disk} {n k : Nat} (h : ∀ x ∈ dk.holes, x.draw < k) :
    ∀ x ∈ (Disk.truncate dk n).holes, x.draw < k := by
  intro x hx
  obtain ⟨y, hy, _, rfl⟩ := Hole.mem_below hx
  exact h y hy

theorem Disk.write_draws {dk : Disk} {j off k : Nat} {bs : List Byte} (hj : j < k) (h : ∀ x ∈ dk.holes, x.draw < k) :
    ∀ x ∈ (Disk.write dk j off bs).holes, x.draw < k := by
  refine Disk.writeAt_draws ?_
  split
  · exact Disk.punch_draws hj h
  · exact h

theorem Disk.writeShort_draws {dk : Disk} {j off n k : Nat} (hj : j < k) (h : ∀ x ∈ dk.holes, x.draw < k) :
    ∀ x ∈ (Disk.writeShort dk j off n).holes, x.draw < k := by
  have hp := Disk.punch_draws (lo := min dk.len off) (hi := off + n) hj h
  simp only [Disk.writeShort]
  split
  · exact Disk.truncate_draws hp
  · exact Disk.punch_draws hj hp

end Sys2Proof.Machine
end

