-- ==== Sys2Proof/Laws/Ops.lean ====
section
/-! SUPPORT. Everything each shared operation can do, said once. -/

namespace Sys2Proof.Machine

/-! ## Operands -/

/-- Two addresses name the same port exactly when their low bytes agree (20_memory.md R34). -/
theorem portOf_toNat (address : Nat) : (portOf address).toNat = address % 256 := by
  simp [portOf]

theorem portOf_eq_iff (a b : Nat) : portOf a = portOf b ↔ a % 256 = b % 256 := by
  rw [← BitVec.toNat_inj, portOf_toNat, portOf_toNat]

theorem portOf_eq_cmdPort_iff (a : Nat) : portOf a = Config.cmdPort ↔ a % 256 = 0 := by
  rw [← BitVec.toNat_inj, portOf_toNat]
  simp

theorem portOf_eq_consolePort_iff (a : Nat) : portOf a = Config.consolePort ↔ a % 256 = 128 := by
  rw [← BitVec.toNat_inj, portOf_toNat]
  simp

/-- Sectors that overlap are the same sector: offsets are multiples of 128 (20_memory.md R37, R38). -/
theorem sectorOffset_overlap {t s t' s' : U16} (h₁ : sectorOffset t s < sectorOffset t' s' + 128)
    (h₂ : sectorOffset t' s' < sectorOffset t s + 128) : sectorOffset t s = sectorOffset t' s' := by
  simp only [sectorOffset, Config.sectorSize] at *
  omega

/-- A disk index names a disk exactly when it is below NDISKS (20_memory.md R35). -/
theorem State.disk?_eq_none_iff (s : State) (d : Byte) : s.disk? d = none ↔ s.disks.length ≤ d.toNat := by
  simp [State.disk?]

/-! ## Sums -/

theorem byteSum_le (bs : List Byte) : byteSum bs ≤ bs.length * 255 := by
  induction bs with
  | nil => simp [byteSum]
  | cons b bs ih =>
    have := b.isLt
    simp only [byteSum, List.map_cons, List.sum_cons, List.length_cons] at *
    omega

/-! ## The store -/

theorem State.storeCount_le (s : State) (n : Nat) : s.storeCount n ≤ n := by
  unfold State.storeCount
  split <;> omega

theorem State.storeCount_of_safe {s : State} (h : s.storeWriteMayFail = false) (n : Nat) : s.storeCount n = n := by
  simp [State.storeCount, h]

@[simp] theorem State.storeCount_memoryToScratch (s : State) (a : U16) (n : Nat) :
    (s.memoryToScratch a).storeCount n = s.storeCount n := rfl

theorem State.memoryToScratch_length (s : State) (a : U16) : (s.memoryToScratch a).scratch.length = 128 := by
  simp

/-- READDMA's and READSUM's first steps: a bad index, a short read, or the whole sector in SCRATCH (42_disk_commands.md R86, R87, R89). -/
theorem loadSector_cases (d : Byte) (sector track : U16) (s : State) :
    (s.disk? d = none ∧ loadSector d sector track s = .error (s.raise (.diskIndexInvalid d))) ∨
    ∃ dk, s.disk? d = some dk ∧
      ((dk.len < sectorOffset track sector + 128 ∧ loadSector d sector track s =
          .error (s.loseScratch.raise (.shortRead d (sectorOffset track sector) (dk.len - sectorOffset track sector)))) ∨
       (sectorOffset track sector + 128 ≤ dk.len ∧ loadSector d sector track s =
          .ok (s.fillScratch (Disk.read dk (sectorOffset track sector) 128)))) := by
  cases hd : s.disk? d with
  | none => exact .inl ⟨rfl, by simp [loadSector, hd]⟩
  | some dk =>
    refine .inr ⟨dk, rfl, ?_⟩
    by_cases hlen : sectorOffset track sector + 128 ≤ dk.len
    · refine .inr ⟨hlen, ?_⟩
      simp only [loadSector, hd, Config.sectorSize]
      rw [if_pos ((Disk.read_whole_iff dk _ 128 (by omega)).2 hlen)]
    · refine .inl ⟨by omega, ?_⟩
      simp only [loadSector, hd, Config.sectorSize]
      rw [if_neg (fun h => hlen ((Disk.read_whole_iff dk _ 128 (by omega)).1 h)), Disk.read_length,
        Nat.min_eq_right (by omega)]

end Sys2Proof.Machine
end

