-- ==== Sys2Proof/Laws/PerInstr.lean ====
section
/-! SUPPORT. A statement about each command as syntax: the encoder writes as many bytes as the frame length says. -/

namespace Sys2Proof

/-- Where the spec gives the frame of `i`, its encoding has the frame's length (30_encoding.md R51, R52). -/
def Laws.FrameSize.Statement (i : Instr) : Prop := i.wellFormed = true → i.frameLength = some (encode i).length

theorem Laws.FrameSize.read : Laws.FrameSize.Statement .read := by simp [Laws.FrameSize.Statement, Instr.wellFormed]
theorem Laws.FrameSize.write : Laws.FrameSize.Statement .write := by simp [Laws.FrameSize.Statement, Instr.wellFormed]
theorem Laws.FrameSize.const : Laws.FrameSize.Statement .const := fun _ => rfl
theorem Laws.FrameSize.conin : Laws.FrameSize.Statement .conin := fun _ => rfl
theorem Laws.FrameSize.serout : Laws.FrameSize.Statement .serout := by simp [Laws.FrameSize.Statement, Instr.wellFormed]
theorem Laws.FrameSize.readsum (d : Byte) (sector track : U16) : Laws.FrameSize.Statement (.readsum d sector track) :=
  fun _ => rfl
theorem Laws.FrameSize.writesum (d : Byte) (sector track : U16) : Laws.FrameSize.Statement (.writesum d sector track) :=
  fun _ => rfl
theorem Laws.FrameSize.readdma (d : Byte) (sector track address : U16) :
    Laws.FrameSize.Statement (.readdma d sector track address) := fun _ => rfl
theorem Laws.FrameSize.writedma (d : Byte) (sector track address : U16) :
    Laws.FrameSize.Statement (.writedma d sector track address) := fun _ => rfl

end Sys2Proof
end

