-- ==== Sys2Proof/Laws/Step.lean ====
section
/-! SUPPORT. What a meaning, the framer and a step can do: one inversion lemma each. -/

namespace Sys2Proof.Machine

/-! ## Meanings -/

/-- READDMA: a bad index, a short read, or the transfer (42_disk_commands.md R88). -/
theorem execReaddma_cases (d : Byte) (sector track address : U16) (s : State) :
    (s.disk? d = none ∧ execReaddma d sector track address s = .next (s.raise (.diskIndexInvalid d))) ∨
    ∃ dk, s.disk? d = some dk ∧
      ((dk.len < sectorOffset track sector + 128 ∧ execReaddma d sector track address s =
          .next (s.loseScratch.raise (.shortRead d (sectorOffset track sector) (dk.len - sectorOffset track sector)))) ∨
       (sectorOffset track sector + 128 ≤ dk.len ∧ execReaddma d sector track address s =
          .next (((s.fillScratch (Disk.read dk (sectorOffset track sector) 128)).scratchToMemory address).respond
            readdmaResponse))) := by
  obtain ⟨h, he⟩ | ⟨dk, h, ⟨hl, he⟩ | ⟨hl, he⟩⟩ := loadSector_cases d sector track s
  · exact .inl ⟨h, by simp only [execReaddma, he]⟩
  · exact .inr ⟨dk, h, .inl ⟨hl, by simp only [execReaddma, he]⟩⟩
  · exact .inr ⟨dk, h, .inr ⟨hl, by simp only [execReaddma, he]⟩⟩

/-- READSUM: a bad index, a short read, or the response (42_disk_commands.md R92). -/
theorem execReadsum_cases (d : Byte) (sector track : U16) (s : State) :
    (s.disk? d = none ∧ execReadsum d sector track s = .next (s.raise (.diskIndexInvalid d))) ∨
    ∃ dk, s.disk? d = some dk ∧
      ((dk.len < sectorOffset track sector + 128 ∧ execReadsum d sector track s =
          .next (s.loseScratch.raise (.shortRead d (sectorOffset track sector) (dk.len - sectorOffset track sector)))) ∨
       (sectorOffset track sector + 128 ≤ dk.len ∧ execReadsum d sector track s =
          .next ((s.fillScratch (Disk.read dk (sectorOffset track sector) 128)).respond
            (readsumResponse (Disk.read dk (sectorOffset track sector) 128))))) := by
  obtain ⟨h, he⟩ | ⟨dk, h, ⟨hl, he⟩ | ⟨hl, he⟩⟩ := loadSector_cases d sector track s
  · exact .inl ⟨h, by simp only [execReadsum, he]⟩
  · exact .inr ⟨dk, h, .inl ⟨hl, by simp only [execReadsum, he]⟩⟩
  · exact .inr ⟨dk, h, .inr ⟨hl, by simp only [execReadsum, he]; rfl⟩⟩

/-- WRITEDMA: a bad index, a full write, or a short write (42_disk_commands.md R90, R91). -/
theorem execWritedma_cases (d : Byte) (sector track address : U16) (s : State) :
    (s.disk? d = none ∧ execWritedma d sector track address s = .next (s.raise (.diskIndexInvalid d))) ∨
    ∃ dk, s.disk? d = some dk ∧
      ((s.storeCount 128 = 128 ∧ execWritedma d sector track address s =
          .next (State.respond
            { s with
              scratch := Memory.readRange s.mem address.toNat 128
              disks := s.disks.set d.toNat
                (Disk.write dk s.draws (sectorOffset track sector) (Memory.readRange s.mem address.toNat 128))
              draws := s.draws + 1 } writedmaResponse)) ∨
       (s.storeCount 128 < 128 ∧ execWritedma d sector track address s =
          .next (State.raise
            { s with
              scratch := Memory.readRange s.mem address.toNat 128
              disks := s.disks.set d.toNat (Disk.writeShort dk s.draws (sectorOffset track sector) 128)
              draws := s.draws + 1 } (.shortWrite d (sectorOffset track sector) (s.storeCount 128))))) := by
  cases hd : s.disk? d with
  | none => exact .inl ⟨rfl, by simp only [execWritedma, hd]⟩
  | some dk =>
    refine .inr ⟨dk, rfl, ?_⟩
    have hlen := s.memoryToScratch_length address
    by_cases hc : s.storeCount 128 = 128
    · refine .inl ⟨hc, ?_⟩
      simp only [execWritedma, hd, Config.sectorSize, hlen, State.storeCount_memoryToScratch, hc, if_pos, State.storeWrite,
        State.storeSync]
      rfl
    · refine .inr ⟨by have := s.storeCount_le 128; omega, ?_⟩
      simp only [execWritedma, hd, Config.sectorSize, hlen, State.storeCount_memoryToScratch, if_neg hc, State.storeWrite]
      rfl

/-- What no command changes but by its frame's own write: CB, the pending transactions, the console, the returned bytes and the
parameters of the run. -/
theorem exec_keeps {i : Instr} {s t : State} (h : exec i s = .next t) :
    t.cb = s.cb ∧ t.pending = s.pending ∧ t.console = s.console ∧ t.returned = s.returned ∧
      t.storeWriteMayFail = s.storeWriteMayFail ∧ t.disks.length = s.disks.length := by
  cases i with
  | read => simp [exec, execRead] at h
  | write => simp [exec, execWrite] at h
  | serout => simp [exec, execSerout] at h
  | writesum => simp [exec, execWritesum] at h
  | const => simp only [exec, execConst, Host.Outcome.next.injEq] at h; subst h; simp
  | conin => simp only [exec, execConin, Host.Outcome.next.injEq] at h; subst h; simp
  | readsum d se tr =>
    obtain ⟨_, he⟩ | ⟨dk', _, ⟨_, he⟩ | ⟨_, he⟩⟩ := execReadsum_cases d se tr s <;>
    · rw [exec, he, Host.Outcome.next.injEq] at h; subst h; simp
  | readdma d se tr a =>
    obtain ⟨_, he⟩ | ⟨dk', _, ⟨_, he⟩ | ⟨_, he⟩⟩ := execReaddma_cases d se tr a s <;>
    · rw [exec, he, Host.Outcome.next.injEq] at h; subst h; simp
  | writedma d se tr a =>
    obtain ⟨_, he⟩ | ⟨dk', _, ⟨_, he⟩ | ⟨_, he⟩⟩ := execWritedma_cases d se tr a s <;>
    · rw [exec, he, Host.Outcome.next.injEq] at h; subst h; simp

/-- The bytes a command pushes are those of the table (30_encoding.md R59). -/
theorem exec_response {i : Instr} {s t : State} (h : exec i s = .next t) : t.rq = s.rq ++ responseOf i s := by
  cases i with
  | read => simp [exec, execRead] at h
  | write => simp [exec, execWrite] at h
  | serout => simp [exec, execSerout] at h
  | writesum => simp [exec, execWritesum] at h
  | const => simp only [exec, execConst, Host.Outcome.next.injEq] at h; subst h; simp [responseOf]
  | conin => simp only [exec, execConin, Host.Outcome.next.injEq] at h; subst h; simp [responseOf]
  | readsum d se tr =>
    obtain ⟨hd, he⟩ | ⟨dk', hd, ⟨hl, he⟩ | ⟨hl, he⟩⟩ := execReadsum_cases d se tr s <;>
      (rw [exec, he, Host.Outcome.next.injEq] at h; subst h; simp [responseOf, State.sector?, hd])
    · rw [if_neg (by omega)]; rfl
    · simp [hl]
  | readdma d se tr a =>
    obtain ⟨hd, he⟩ | ⟨dk', hd, ⟨hl, he⟩ | ⟨hl, he⟩⟩ := execReaddma_cases d se tr a s <;>
      (rw [exec, he, Host.Outcome.next.injEq] at h; subst h; simp [responseOf, State.sector?, hd])
    · rw [if_neg (by omega)]; rfl
    · simp [hl]
  | writedma d se tr a =>
    obtain ⟨hd, he⟩ | ⟨dk', hd, ⟨hl, he⟩ | ⟨hl, he⟩⟩ := execWritedma_cases d se tr a s <;>
      (rw [exec, he, Host.Outcome.next.injEq] at h; subst h; simp [responseOf, hd])
    · simp [hl]
    · omega

/-- The framer's own two fields do not change a command's response. -/
theorem responseOf_framer (i : Instr) (s : State) (rest : List Transaction) (cb' : List Byte) :
    responseOf i { s with pending := rest, cb := cb' } = responseOf i s := by
  cases i <;> rfl

/-- An unfinished frame is what R24 allows in CB. -/
theorem framePending_of_incomplete {f : List Byte} (h : decode f = .incomplete) : framePending f = true := by
  cases f with
  | nil => rfl
  | cons c p =>
    obtain ⟨n, h1, h2⟩ := decode_eq_incomplete h
    simp [framePending, h1, h2]

/-! ## The framer -/

/-- CmdWrite: an unknown code, a command without a frame, an unfinished frame, or a finished one (40_command_framer.md R70). The
last case, a buffer longer than its frame, arises in no run (R74). -/
theorem cmdWrite_cases (v : Byte) (s : State) :
    (∃ code, decode (s.cb ++ [v]) = .unrecognised code ∧
      cmdWrite v s = .next ((s.appendCommand v).raise (.unknownCommand code))) ∨
    (∃ i, decode (s.cb ++ [v]) = .unspecified i ∧ cmdWrite v s = exec i (s.appendCommand v)) ∨
    (decode (s.cb ++ [v]) = .incomplete ∧ cmdWrite v s = .next (s.appendCommand v)) ∨
    (∃ i n, decode (s.cb ++ [v]) = .complete i n ∧ (s.cb ++ [v]).length = n ∧ cmdWrite v s = exec i { s with cb := [] }) ∨
    (∃ i n, decode (s.cb ++ [v]) = .complete i n ∧ n < (s.cb ++ [v]).length ∧
      cmdWrite v s = .next (s.appendCommand v)) := by
  cases hd : decode (s.cb ++ [v]) with
  | unrecognised code => exact .inl ⟨code, rfl, by simp only [cmdWrite, State.appendCommand_cb, hd]⟩
  | unspecified i => exact .inr (.inl ⟨i, rfl, by simp only [cmdWrite, State.appendCommand_cb, hd]⟩)
  | incomplete => exact .inr (.inr (.inl ⟨rfl, by simp only [cmdWrite, State.appendCommand_cb, hd]⟩))
  | complete i n =>
    obtain ⟨_, _, _, _, _, hle⟩ := decode_eq_complete hd
    by_cases hn : (s.cb ++ [v]).length = n
    · refine .inr (.inr (.inr (.inl ⟨i, n, rfl, hn, ?_⟩)))
      have hs : (s.appendCommand v).splice n = { s with cb := [] } := by
        simp [State.splice, State.appendCommand, List.drop_eq_nil_of_le (Nat.le_of_eq hn)]
      simp only [cmdWrite, State.appendCommand_cb, hd]
      exact (if_pos hn).trans (by rw [hs])
    · refine .inr (.inr (.inr (.inr ⟨i, n, rfl, by omega, ?_⟩)))
      simp only [cmdWrite, State.appendCommand_cb, hd]
      exact if_neg hn

/-! ## The step -/

theorem step_halted {s : State} {c : FaultCause} (h : s.halt = some c) : step s = .fault (.halted c) := by
  simp [step, runNext, h]

theorem step_idle {s : State} (h : s.halt = none) (hp : s.pending = []) : step s = .next s := by
  simp [step, runNext, h, hp]

theorem step_transaction {s : State} {t : Transaction} {rest : List Transaction} (h : s.halt = none)
    (hp : s.pending = t :: rest) : step s = transact t { s with pending := rest } := by
  simp [step, runNext, h, hp]

/-- A step that answers a next state was taken on a block that is not halted; it is the idle step or a transaction. -/
theorem step_cases {s t : State} (h : step s = .next t) :
    s.halt = none ∧ ((s.pending = [] ∧ t = s) ∨
      ∃ x rest, s.pending = x :: rest ∧ transact x { s with pending := rest } = .next t) := by
  rcases hh : s.halt with _ | c
  · refine ⟨rfl, ?_⟩
    rcases hp : s.pending with _ | ⟨x, rest⟩
    · rw [step_idle hh hp, Host.Outcome.next.injEq] at h
      exact .inl ⟨rfl, h.symm⟩
    · rw [step_transaction hh hp, hh] at h
      exact .inr ⟨x, rest, rfl, h⟩
  · simp [step_halted hh] at h

/-! ## What the next step is -/

theorem State.next?_of_pending {s : State} {x : Transaction} {rest : List Transaction} (h : s.halt = none)
    (hp : s.pending = x :: rest) : s.next? = some x := by
  simp [State.next?, h, hp]

theorem State.next?_of_idle {s : State} (h : s.halt = none) (hp : s.pending = []) : s.next? = none := by
  simp [State.next?, h, hp]

theorem State.command?_of_complete {s : State} {address : Nat} {v : Byte} {i : Instr} {n : Nat}
    (hx : s.next? = some (.writePort address v)) (ha : address % 256 = 0) (hd : decode (s.cb ++ [v]) = .complete i n)
    (hn : (s.cb ++ [v]).length = n) : s.command? = some i := by
  simp only [State.command?, hx, (portOf_eq_cmdPort_iff address).2 ha, hd, if_pos, hn]

theorem State.command?_of_not_complete {s : State} {address : Nat} {v : Byte}
    (hx : s.next? = some (.writePort address v)) (hd : ∀ i n, decode (s.cb ++ [v]) = .complete i n → (s.cb ++ [v]).length ≠ n) :
    s.command? = none := by
  simp only [State.command?, hx]
  split
  · split
    · rename_i i n hc
      exact if_neg (hd i n hc)
    · rfl
  · rfl

theorem State.command?_of_other_port {s : State} {address : Nat} {v : Byte} (hx : s.next? = some (.writePort address v))
    (ha : address % 256 ≠ 0) : s.command? = none := by
  simp only [State.command?, hx]
  rw [if_neg fun h => ha ((portOf_eq_cmdPort_iff address).1 h)]

/-- All that a step which answers a next state can have done. -/
inductive StepCase (s : State) : State → Prop where
  /-- Nothing was to come. -/
  | idle : s.next? = none → s.command? = none → StepCase s s
  | pop (address : Nat) (rest : List Transaction) (b : Byte) (q : List Byte) : s.next? = some (.readPort address) →
      s.command? = none → address % 256 = 0 → s.rq = b :: q →
      StepCase s { s with pending := rest, rq := q, returned := s.returned ++ [.port 0x00 b] }
  | underflow (address : Nat) (rest : List Transaction) : s.next? = some (.readPort address) → s.command? = none →
      address % 256 = 0 → s.rq = [] → StepCase s { s with pending := rest, returned := s.returned ++ [.port 0x00 0x00] }
  | warning (address : Nat) (rest : List Transaction) : s.next? = some (.readPort address) → s.command? = none →
      address % 256 ≠ 0 →
      StepCase s { s with
        pending := rest
        log := s.log ++ [.unmappedPortRead (portOf address)]
        returned := s.returned ++ [.port (portOf address) 0x00] }
  | readMemory (address : Nat) (rest : List Transaction) : s.next? = some (.readMemory address) → s.command? = none →
      StepCase s { s with
        pending := rest
        returned := s.returned ++ [.memory (Memory.reduce address) (Memory.byte s.mem address)] }
  | writeMemory (address : Nat) (v : Byte) (rest : List Transaction) : s.next? = some (.writeMemory address v) →
      s.command? = none → StepCase s { s with pending := rest, mem := Memory.setByte s.mem address v }
  | key (b : Byte) (rest : List Transaction) : s.next? = some (.keyPush b) → s.command? = none →
      StepCase s { s with pending := rest, kq := s.kq ++ [b] }
  | console (address : Nat) (v : Byte) (rest : List Transaction) : s.next? = some (.writePort address v) →
      s.command? = none → address % 256 = 128 → StepCase s { s with pending := rest, console := s.console ++ [v] }
  | unmappedWrite (address : Nat) (v : Byte) (rest : List Transaction) : s.next? = some (.writePort address v) →
      s.command? = none → address % 256 ≠ 0 → address % 256 ≠ 128 →
      StepCase s { s with
        pending := rest
        halt := some (.unmappedPortWrite (portOf address) v)
        log := s.log ++ [.fatal (.unmappedPortWrite (portOf address) v)] }
  | unknown (address : Nat) (v code : Byte) (rest : List Transaction) : s.next? = some (.writePort address v) →
      s.command? = none → address % 256 = 0 → decode (s.cb ++ [v]) = .unrecognised code →
      StepCase s { s with
        pending := rest
        cb := s.cb ++ [v]
        halt := some (.unknownCommand code)
        log := s.log ++ [.fatal (.unknownCommand code)] }
  /-- The frame is not finished (or, in no run, CB is longer than its frame). -/
  | append (address : Nat) (v : Byte) (rest : List Transaction) : s.next? = some (.writePort address v) →
      s.command? = none → address % 256 = 0 →
      (decode (s.cb ++ [v]) = .incomplete ∨
        ∃ i n, decode (s.cb ++ [v]) = .complete i n ∧ n < (s.cb ++ [v]).length) →
      StepCase s { s with pending := rest, cb := s.cb ++ [v] }
  | command (address : Nat) (v : Byte) (rest : List Transaction) (i : Instr) (n : Nat) (t : State) :
      s.next? = some (.writePort address v) → s.command? = some i → address % 256 = 0 →
      decode (s.cb ++ [v]) = .complete i n → (s.cb ++ [v]).length = n →
      exec i { s with pending := rest, cb := [] } = .next t → StepCase s t

/-- READ, WRITE and SEROUT have no next state. -/
theorem exec_unspecified_not_next {f : List Byte} {i : Instr} {s t : State} (h : decode f = .unspecified i) :
    exec i s ≠ .next t := by
  rcases decode_eq_unspecified h with rfl | rfl | rfl <;> simp [exec, execRead, execWrite, execSerout]

/-- The inversion lemma of `step`. -/
theorem step_next_cases {s t : State} (h : step s = .next t) : s.halt = none ∧ StepCase s t := by
  obtain ⟨hh, ⟨hp, rfl⟩ | ⟨x, rest, hp, hx⟩⟩ := step_cases h
  · refine ⟨hh, .idle (State.next?_of_idle hh hp) ?_⟩
    simp [State.command?, State.next?_of_idle hh hp]
  refine ⟨hh, ?_⟩
  have hn := State.next?_of_pending hh hp
  cases x with
  | readPort address =>
    have hc : s.command? = none := by simp [State.command?, hn]
    simp only [transact, Machine.readPort, Host.Outcome.next.injEq] at hx
    subst hx
    split
    · rename_i hport
      have ha := (portOf_eq_cmdPort_iff address).1 hport
      rcases hq : s.rq with _ | ⟨b, q⟩
      · simpa [popResponse, hq, State.answer] using StepCase.underflow address rest hn hc ha hq
      · simpa [popResponse, hq, State.answer] using StepCase.pop address rest b q hn hc ha hq
    · rename_i hport
      exact .warning address rest hn hc fun h => hport ((portOf_eq_cmdPort_iff address).2 h)
  | readMemory address =>
    have hc : s.command? = none := by simp [State.command?, hn]
    simp only [transact, Host.Outcome.next.injEq] at hx
    subst hx
    exact .readMemory address rest hn hc
  | writeMemory address v =>
    have hc : s.command? = none := by simp [State.command?, hn]
    simp only [transact, Host.Outcome.next.injEq] at hx
    subst hx
    exact .writeMemory address v rest hn hc
  | keyPush b =>
    have hc : s.command? = none := by simp [State.command?, hn]
    simp only [transact, Host.Outcome.next.injEq] at hx
    subst hx
    exact .key b rest hn hc
  | writePort address v =>
    simp only [transact, Machine.writePort] at hx
    split at hx
    · rename_i hport
      have ha := (portOf_eq_consolePort_iff address).1 hport
      simp only [Host.Outcome.next.injEq] at hx
      subst hx
      exact .console address v rest hn (State.command?_of_other_port hn (by omega)) ha
    · rename_i hcon
      have hne : address % 256 ≠ 128 := fun h => hcon ((portOf_eq_consolePort_iff address).2 h)
      split at hx
      · rename_i hport
        have ha := (portOf_eq_cmdPort_iff address).1 hport
        obtain ⟨code, hd, he⟩ | ⟨i, hd, he⟩ | ⟨hd, he⟩ | ⟨i, n, hd, hl, he⟩ | ⟨i, n, hd, hl, he⟩ :=
          cmdWrite_cases v { s with pending := rest }
        · rw [he, Host.Outcome.next.injEq] at hx
          subst hx
          exact .unknown address v code rest hn (State.command?_of_not_complete hn (by simp [hd])) ha hd
        · exact absurd (he ▸ hx) (exec_unspecified_not_next hd)
        · rw [he, Host.Outcome.next.injEq] at hx
          subst hx
          exact .append address v rest hn (State.command?_of_not_complete hn (by simp [hd])) ha (.inl hd)
        · exact .command address v rest i n t hn (State.command?_of_complete hn ha hd hl) ha hd hl (he ▸ hx)
        · rw [he, Host.Outcome.next.injEq] at hx
          subst hx
          refine .append address v rest hn (State.command?_of_not_complete hn fun j m hj => ?_) ha (.inr ⟨i, n, hd, hl⟩)
          have hl : n < (s.cb ++ [v]).length := hl
          simp only [hd, Decoded.complete.injEq] at hj
          omega
      · rename_i hport
        simp only [Host.Outcome.next.injEq] at hx
        subst hx
        have ha : address % 256 ≠ 0 := fun h => hport ((portOf_eq_cmdPort_iff address).2 h)
        exact .unmappedWrite address v rest hn (State.command?_of_other_port hn ha) ha hne

end Sys2Proof.Machine
end

