-- ==== Sys2Proof/Tests/Slice0.lean ====
section
/-! SUPPORT. Tests whose expected results are written out from spec/ (95_test_vectors.md where a vector is named), and a witness for the
hypotheses of every statement. -/

namespace Sys2Proof.Tests

open Sys2Proof.Machine

/-! ## Builders -/

/-- The next state of an outcome, if it has one. -/
def nextState : Host.Outcome State Fault Refusal → Option State
  | .next s => some s
  | .fault _ => none
  | .refused _ => none

theorem eq_next_of_nextState {o : Host.Outcome State Fault Refusal} {s : State} (h : nextState o = some s) : o = .next s := by
  cases o <;> simp_all [nextState]

/-- The refusal of an outcome, if it is one. -/
def refusal : Host.Outcome State Fault Refusal → Option Refusal
  | .next _ => none
  | .fault _ => none
  | .refused r => some r

/-- A block with the disk `00 01 .. n-1` and the transactions `ts` to come. -/
def withDisk (n : Nat) (ts : List Transaction) : State :=
  { State.resetWith [] [Disk.ofBytes ((List.range n).map (BitVec.ofNat 8))] false with pending := ts }

/-- `OUT 0, v` for each byte (30_encoding.md R62). -/
def out (bs : List Byte) : List Transaction := bs.map (Transaction.writePort 0)

/-- The state after `k` steps, if all of them answer one. -/
def after : Nat → State → Option State
  | 0, s => some s
  | k + 1, s => (nextState (step s)).bind (after k)

/-! ## WellFormed: the one check, refused on each of the three terms it refuses -/

theorem test_wellFormed_refuses_read : Instr.wellFormed .read = false := by decide
theorem test_wellFormed_refuses_write : Instr.wellFormed .write = false := by decide
theorem test_wellFormed_refuses_serout : Instr.wellFormed .serout = false := by decide
theorem test_wellFormed_accepts_extreme_operands :
    Instr.wellFormed (.writedma 0xFF 0xFFFF 0xFFFF 0xFFFF) = true := by decide

/-! ## Decoding: each row's frame written out (30_encoding.md R51, R52) -/

theorem test_decode_read : decode [0b00000001] = .unspecified .read := by decide
theorem test_decode_write : decode [0b00000010] = .unspecified .write := by decide
theorem test_decode_const : decode [0b00000011] = .complete .const 1 := by decide
theorem test_decode_conin : decode [0b00000100] = .complete .conin 1 := by decide
theorem test_decode_serout : decode [0b00000101] = .unspecified .serout := by decide
/-- Vector V1.9: sector bytes before track bytes, low byte first. -/
theorem test_decode_readsum : decode [0b00000110, 0b00000000, 0b00000100, 0b00000011, 0b00000010, 0b00000001] =
    .complete (.readsum 0 0x0304 0x0102) 6 := by decide
theorem test_decode_writesum : decode [0b00000111, 0b10000001, 0b00000100, 0b00000011, 0b00000010, 0b00000001] =
    .complete (.writesum 0x81 0x0304 0x0102) 6 := by decide
theorem test_decode_readdma : decode [0b00001001, 0b00000000, 0b00000101, 0b00000000, 0b00000001, 0b00000000, 0b11000000,
    0b11111111] = .complete (.readdma 0 5 1 0xFFC0) 8 := by decide
theorem test_decode_writedma : decode [0b00001010, 0b00000011, 0b00000101, 0b00000000, 0b00000001, 0b00000000, 0b00110100,
    0b00010010] = .complete (.writedma 3 5 1 0x1234) 8 := by decide
theorem test_decode_unrecognised : decode [0x00] = .unrecognised 0x00 ∧ decode [0x08] = .unrecognised 0x08 ∧
    decode [0x0B] = .unrecognised 0x0B ∧ decode [0xFF] = .unrecognised 0xFF := by decide
theorem test_encode_readdma : encode (.readdma 0 5 1 0xFFC0) = [0x09, 0x00, 0x05, 0x00, 0x01, 0x00, 0xC0, 0xFF] := by decide
/-- 30_encoding.md R62. -/
theorem test_encode_readsum : encode (.readsum 0 5 1) = [0x06, 0x00, 0x05, 0x00, 0x01, 0x00] := by decide
theorem test_table_word : decodeTableWord 64 0xFFC0000100050009 = some (.readdma 0 5 1 0xFFC0) ∧
    decodeTableWord 8 9 = some (.readdma 0 0 0 0) ∧ decodeTableWord 8 1 = some .read ∧ decodeTableWord 8 8 = none := by decide
/-- Offsets of vectors V1.4, V1.5, V1.9, V1.12. -/
theorem test_offsets : sectorOffset 1 0 = 0x2000 ∧ sectorOffset 0 64 = 0x2000 ∧ sectorOffset 0x0102 0x0304 = 0x21C200 ∧
    sectorOffset 0xFFFF 0xFFFF = 0x207FDF80 := by decide
/-- 00_scope.md R3. -/
theorem test_derived_constants : Config.trackSize = 8192 ∧ Config.maxOffset = 545251200 ∧ Config.maxChecksum = 32640 := by decide

/-! ## Reset and the placing of a frame -/

theorem test_reset_memory_wf : Memory.wf State.reset.mem := by decide
/-- R52: a one-byte frame completes in the write of its code; V2.1. -/
theorem test_fetched_const_runs : (nextState (step (State.reset.withFetchWord 8 3))).map State.rq = some [0xFF] := by decide
/-- D6: with no disk attached the command faults (V4.8). -/
theorem test_fetched_readdma_runs : (nextState (step (State.reset.withFetchWord 8 9))).map State.halt =
    some (some (.diskIndexInvalid 0)) := by decide
theorem test_fetched_serout_refuses : refusal (step (State.reset.withFetchWord 8 5)) = some (.unspecifiedCommand 5) := by decide
theorem test_fetched_unknown_faults : (nextState (step (State.reset.withFetchWord 8 8))).map State.halt =
    some (some (.unknownCommand 8)) := by decide

/-! ## Commands -/

/-- V3.8, one of the two: CONST does not consume. -/
theorem test_const_keeps_key : (nextState (exec .const { State.reset with kq := [0x41] })).map (fun t => (t.rq, t.kq)) =
    some ([0x01], [0x41]) := by decide
/-- V3.9: pushed behind a stale byte. -/
theorem test_conin_empty_behind_stale : (nextState (exec .conin { State.reset with rq := [0xAA] })).map (fun t => (t.rq, t.kq)) =
    some ([0xAA, 0xFF], []) := by decide
/-- V3.5: oldest key first. -/
theorem test_conin_oldest_first : (nextState (exec .conin { State.reset with kq := [0x41, 0x42] })).map (fun t => (t.rq, t.kq)) =
    some ([0x01, 0x41], [0x42]) := by decide
/-- V4.4: the window wraps at the top of memory. -/
theorem test_readdma_wraps : (nextState (exec (.readdma 0 0 0 0xFFC0) (withDisk 128 []))).map (fun t =>
    (Memory.byte t.mem 0xFFFF, Memory.byte t.mem 0x0000, Memory.byte t.mem 0x003F, Memory.byte t.mem 0x0040, t.rq)) =
    some (0x3F, 0x40, 0x7F, 0x00, [0x00, 0x00, 0x00, 0x01]) := by decide +kernel
/-- V4.6: 72 bytes left. -/
theorem test_readdma_short : (nextState (exec (.readdma 0 1 0 0x1000) (withDisk 200 []))).map (fun t => (t.halt, t.rq, t.mem)) =
    some (some (.shortRead 0 128 72), [], []) := by decide +kernel
/-- V5.2: the disk grows from 128 bytes to 512, the old bytes stay, the written bytes stand at 384. -/
theorem test_writedma_grows : (nextState (exec (.writedma 0 3 0 0x0100)
      { withDisk 128 [] with mem := [(0x0100, 0xA5), (0x017F, 0xA6)] })).map (fun t =>
    (t.rq, t.disks.map Disk.len, t.disks.map (Disk.byte · 127), t.disks.map (Disk.byte · 384), t.disks.map (Disk.byte · 511))) =
    some ([0x01], [512], [0x7F], [0xA5], [0xA6]) := by decide +kernel
/-- V5.2: the gap is one interval of free bytes, none of them given a value. -/
theorem test_writedma_gap_is_free : (nextState (exec (.writedma 0 3 0 0x0100) (withDisk 128 []))).map (fun t =>
    t.disks.map Disk.holes) = some [[⟨128, 384, 0⟩]] := by decide +kernel
/-- V6.3: `i` for `i = 0..7F`: the sum is 0x1FC0. -/
theorem test_readsum_response : (nextState (exec (.readsum 0 0 0) (withDisk 128 []))).map (fun t =>
    (t.rq.length, t.rq.take 3, t.rq.drop 128)) = some (131, [0x01, 0x00, 0x01], [0x7F, 0xC0, 0x1F]) := by decide +kernel
/-- V8.8: the index check is first. -/
theorem test_readdma_index_first : (nextState (exec (.readdma 5 0 0 0) { State.reset with disks := [⟨0, [], []⟩] })).map
    State.halt = some (some (.diskIndexInvalid 5)) := by decide
theorem test_read_refused : refusal (exec .read State.reset) = some (.unspecifiedCommand 0x01) := by decide
theorem test_write_refused : refusal (exec .write State.reset) = some (.unspecifiedCommand 0x02) := by decide
theorem test_serout_refused : refusal (exec .serout State.reset) = some (.unspecifiedCommand 0x05) := by decide
theorem test_writesum_refused : refusal (exec (.writesum 0 0 0) State.reset) = some (.unspecifiedHandler 0x07) := by decide

/-! ## Transactions -/

/-- V7.2: the port address is masked. -/
theorem test_readPort_masked : (nextState (step { State.reset with rq := [0x5A], pending := [.readPort 0x0100] })).map
    (fun t => (t.rq, t.returned)) = some ([], [.port 0x00 0x5A]) := by decide
/-- V7.4: the console port is write-only. -/
theorem test_readPort_console_warns : (nextState (step { State.reset with rq := [0x5A], pending := [.readPort 0x80] })).map
    (fun t => (t.rq, t.returned, t.log)) = some ([0x5A], [.port 0x80 0x00], [.unmappedPortRead 0x80]) := by decide
/-- V7.8: memory addresses are reduced mod 65536. -/
theorem test_memory_reduced : (after 2 { State.reset with pending := [.writeMemory 0x11234 0x5A, .readMemory 0x1234] }).map
    (fun t => (t.mem, t.returned)) = some ([(0x1234, 0x5A)], [.memory 0x1234 0x5A]) := by decide
/-- Writing what an unlisted address reads as removes the entry. -/
theorem test_memory_canonical : (nextState (step { State.reset with mem := [(5, 1), (6, 2)], pending := [.writeMemory 6 0] })).map
    State.mem = some [(5, 1)] := by decide
/-- V7.5. -/
theorem test_console : (after 2 { State.reset with pending := [.writePort 0x80 0x48, .writePort 0x1280 0x69] }).map State.console =
    some [0x48, 0x69] := by decide
/-- V8.9: routing is first. -/
theorem test_unmapped_write : (nextState (step { State.reset with pending := [.writePort 0x01 0x08] })).map
    (fun t => (t.halt, t.log)) = some (some (.unmappedPortWrite 0x01 0x08), [.fatal (.unmappedPortWrite 0x01 0x08)]) := by decide
/-- V8.4: a parameter is never a code. -/
theorem test_parameter_is_no_code : (nextState (step { State.reset with cb := [0x09], pending := out [0x08] })).map
    (fun t => (t.cb, t.halt)) = some ([0x09, 0x08], none) := by decide
/-- V8.7: the sixth byte of WRITESUM. -/
theorem test_writesum_frame_refused : refusal (step { State.reset with cb := [7, 0, 0, 0, 0], pending := out [0] }) =
    some (.unspecifiedHandler 0x07) := by decide
/-- Program P3, lines 1 to 4: the stale filler comes before CONST's answer. -/
theorem test_stale_bytes_first : (after 4 { withDisk 128 (out [0x10] ++ [.readPort 0] ++ out [0x03] ++ [.readPort 0]) with
    cb := [0x09, 0, 0, 0, 0, 0, 0] }).map (fun t => (t.rq, t.returned)) =
    some ([0x00, 0x01, 0xFF], [.port 0 0x00, .port 0 0x00]) := by decide +kernel

/-! ## Witnesses: a state and operands that meet the hypotheses of each statement -/

theorem witness_DecodeReadsEncodedFrame : Instr.wellFormed (.readdma 1 2 3 4) = true := by decide
theorem witness_EncodeGivesDecodedFrame : decode [0x06, 1, 2, 3, 4, 5, 0x09] = .complete (.readsum 1 0x0302 0x0504) 6 := by decide
theorem witness_ConinPopsOldestKey : { State.reset with kq := [0x41, 0x42] }.kq = 0x41 :: [0x42] ∧ State.reset.kq = [] := by decide
theorem witness_SectorPairsAlias : 64 * (0 : U16).toNat + (64 : U16).toNat = 64 * (1 : U16).toNat + (0 : U16).toNat := by decide
theorem witness_MemoryTransfersWrap : (List.replicate 128 (0xA5 : Byte)).length = 128 ∧
    ∀ i < 128, ((0xFFC0 : U16).toNat + i) % 65536 ≠ 0x0040 % 65536 :=
  ⟨List.length_replicate, by decide +kernel⟩
/-- For ReaddmaTransfersSector and ReadsumAnswersSectorAndSum, at the boundary `off + 128 = len` (V4.9). -/
theorem witness_sector_on_disk : (withDisk 128 []).disk? 0 = some (Disk.ofBytes ((List.range 128).map (BitVec.ofNat 8))) ∧
    sectorOffset 0 0 + 128 = (Disk.ofBytes ((List.range 128).map (BitVec.ofNat 8))).len := by decide +kernel
/-- For WritedmaStoresWindow and WritedmaCompletesOrFallsShort, with a gap. -/
theorem witness_WritedmaStoresWindow : { State.reset with disks := [⟨128, [], []⟩] }.disk? 0 = some ⟨128, [], []⟩ ∧
    State.reset.storeWriteMayFail = false ∧ (128 : Nat) < sectorOffset 0 3 := by decide
/-- WritedmaCompletesOrFallsShort with STORE_WRITE_MAY_FAIL true. -/
theorem witness_WritedmaCompletesOrFallsShort :
    (State.resetWith [] [⟨128, [], []⟩] true).disk? 0 = some ⟨128, [], []⟩ := by decide
theorem witness_ChecksumNeverWraps : (List.replicate 128 (0xFF : Byte)).length = 128 ∧ 15 ≤ 15 :=
  ⟨List.length_replicate, Nat.le_refl _⟩
/-- The boundary `d = NDISKS`. -/
theorem witness_MissingDiskFaults : { State.reset with disks := [⟨128, [], []⟩] }.disks.length ≤ (1 : Byte).toNat := by decide
/-- The boundary of one byte missing (V6.7). -/
theorem witness_ShortReadFaults : { State.reset with disks := [⟨127, [], []⟩] }.disk? 0 = some ⟨127, [], []⟩ ∧
    (127 : Nat) < sectorOffset 0 0 + 128 := by decide

/-- An empty disk, memory all zero, and a key to come. -/
def beforeWrite : State := { State.reset with disks := [⟨0, [], []⟩], pending := [.keyPush 0x41] }

/-- V5.3: the disk is 128 zero bytes after WRITEDMA 0, 0, 0. -/
def afterWrite : State :=
  { beforeWrite with disks := [⟨128, [], []⟩], scratch := List.replicate 128 0, rq := [0x01], draws := 1 }

theorem test_writedma_empty_disk : exec (.writedma 0 0 0 0x3000) beforeWrite = .next afterWrite :=
  eq_next_of_nextState (by decide +kernel)

/-- A sector is written, a key arrives, and the block is still running. -/
theorem witness_WrittenSectorReadsBack :
    exec (.writedma 0 0 0 0x3000) beforeWrite = .next afterWrite ∧ beforeWrite.halt = none ∧ afterWrite.halt = none ∧
      Run (fun x => ¬ x.overwrites 0 (sectorOffset 0 0)) afterWrite { afterWrite with kq := [0x41], pending := [] } :=
  ⟨test_writedma_empty_disk, rfl, rfl, .step (fun h => h) rfl (.here _)⟩

theorem witness_RecreatedBlockHoldsSector : beforeWrite.halt = none ∧
    exec (.writedma 0 0 0 0x3000) beforeWrite = .next afterWrite ∧ afterWrite.halt = none :=
  ⟨rfl, test_writedma_empty_disk, rfl⟩

/-- The four clauses of StepRunsDecodedCommand: CB empty, and the byte written to the command port. -/
theorem witness_StepRunsDecodedCommand :
    { State.reset with pending := out [0x03] }.pending = .writePort 0 0x03 :: [] ∧ (0x0100 : Nat) % 256 = 0 ∧
    decode ([0x06, 0, 0, 0, 0] ++ [0]) = .complete (.readsum 0 0 0) ([0x06, 0, 0, 0, 0] ++ [(0 : Byte)]).length ∧
    decode ([] ++ [0x02]) = .unspecified .write ∧ decode ([0x09] ++ [0x08]) = .incomplete ∧
    decode ([] ++ [0x0C]) = .unrecognised 0x0C := by decide
theorem witness_UnknownCodeFaults : State.reset.halt = none ∧ State.reset.cb = [] ∧
    { State.reset with pending := out [0x0B] }.pending = .writePort 0 0x0B :: [] ∧ 0x0B ≤ (0x0B : Byte).toNat ∧
    0x0B ≤ (0xFF : Byte).toNat := by decide
theorem witness_StepRefusesUndescribedCommands : { State.reset with pending := out [0x01] }.pending = .writePort 0 0x01 :: [] ∧
    State.reset.cb = [] ∧ { State.reset with cb := [0x07, 1, 2, 3, 4] }.cb = [0x07, 1, 2, 3, 4] := by decide
theorem witness_FrameByteByByteRunsCommand :
    { State.reset with pending := out [0x06, 0, 5, 0, 1, 0] ++ [Transaction.keyPush 1] }.pending =
      (encode (.readsum 0 5 1)).map (Transaction.writePort 0) ++ [Transaction.keyPush 1] ∧
    Instr.wellFormed (.readsum 0 5 1) = true ∧ State.reset.cb = [] := by decide
/-- For OtherTransactionsLeaveBuffer and every statement about one step that answers a next state: V2.3's console write in the middle
of a frame. -/
theorem witness_OtherTransactionsLeaveBuffer :
    ∃ s t : State, step s = .next t ∧ s.next? = some (.writePort 0x80 0x41) ∧ s.cb = [0x09, 0x00, 0x05] ∧ Inv s := by
  refine ⟨{ State.reset with cb := [0x09, 0x00, 0x05], pending := [.writePort 0x80 0x41] }, _, rfl, rfl, rfl, ?_⟩
  refine ⟨by decide, ?_, ?_, List.length_replicate, fun _ => by decide, ?_⟩
  · exact fun dk h => absurd h List.not_mem_nil
  · exact fun dk h => absurd h List.not_mem_nil
  · exact fun e h => absurd h List.not_mem_nil
theorem witness_CommandPortReadPops : { State.reset with pending := [.readPort 0x0100], rq := [1, 2] }.rq = 1 :: [2] ∧
    { State.reset with pending := [.readPort 0x0100] }.pending = .readPort 0x0100 :: [] ∧ 0x0100 % 256 = 0 ∧ State.reset.rq = [] := by
  decide
theorem witness_UnmappedReadWarns : { State.reset with pending := [.readPort 0x80] }.pending = .readPort 0x80 :: [] ∧
    0x80 % 256 ≠ 0 ∧ State.reset.halt = none := by decide
theorem witness_MemoryReadReturnsByte : { State.reset with pending := [.readMemory 0x11234] }.pending = .readMemory 0x11234 :: [] ∧
    State.reset.halt = none := by decide
theorem witness_MemoryWriteSetsByte : { State.reset with pending := [.writeMemory 0x11234 1] }.pending =
    .writeMemory 0x11234 1 :: [] ∧ 0x1235 % 65536 ≠ 0x11234 % 65536 := by decide
theorem witness_ConsoleWriteEmits : { State.reset with pending := [.writePort 0x1280 1] }.pending = .writePort 0x1280 1 :: [] ∧
    0x1280 % 256 = 0x80 := by decide
theorem witness_UnmappedWriteFaults : { State.reset with pending := [.writePort 0x81 1] }.pending = .writePort 0x81 1 :: [] ∧
    0x81 % 256 ≠ 0 ∧ 0x81 % 256 ≠ 0x80 := by decide
theorem witness_KeyPushAppends : { State.reset with pending := [.keyPush 0x03] }.pending = .keyPush 0x03 :: [] := by decide
theorem witness_PortAddressesAreMasked : 0x0100 % 256 = 0xFF00 % 256 := by decide
theorem witness_MemoryAddressesAreReduced : 0x11234 % 65536 = 0x1234 % 65536 := by decide
theorem witness_StepTakesNextTransaction : State.reset.halt = none ∧ State.reset.pending = [] ∧
    { State.reset with pending := [.keyPush 1] }.pending = .keyPush 1 :: [] := by decide
theorem witness_HaltedBlockAcceptsNothing : (State.reset.raise (.unknownCommand 8)).halt = some (.unknownCommand 8) := by decide
/-- A refusal of a running block: SEROUT's byte. -/
theorem witness_OnlyUndescribedCommandsStop : State.reset.halt = none ∧
    refusal (step { State.reset with pending := out [0x05] }) = some (.unspecifiedCommand 0x05) := by decide
theorem witness_FaultsComeFromPortWrites :
    ∃ s t : State, s.halt = none ∧ step s = .next t ∧ t.halt = some (.diskIndexInvalid 3) :=
  ⟨{ State.reset with cb := [0x06, 3, 4, 0, 0], pending := out [0] }, _, rfl, rfl, rfl⟩
/-- For StepMovesResponseQueue and KeyQueueChangesOnlyByPushAndConin: a CONIN runs. -/
theorem witness_StepMovesResponseQueue :
    ∃ s t : State, step s = .next t ∧ s.command? = some .conin ∧ s.pushed = [0x01, 0x41] ∧ t.kq = [] :=
  ⟨{ State.reset with kq := [0x41], pending := out [0x04] }, _, rfl, rfl, rfl, rfl⟩
theorem witness_ResponseQueueIsFifo :
    ∃ s t : State, Traffic s [0xFF] [0xFF] t ∧ t.returned = [.port 0x00 0xFF] :=
  ⟨{ State.reset with pending := out [0x03] ++ [.readPort 0] }, _, .step rfl (.step rfl (.here _)), rfl⟩
theorem witness_MemoryChangesOnlyByWriteAndReaddma :
    ∃ s t : State, step s = .next t ∧ Memory.byte t.mem 7 ≠ Memory.byte s.mem 7 :=
  ⟨{ State.reset with pending := [.writeMemory 7 1] }, _, rfl, by decide⟩
theorem witness_DisksChangeOnlyByWritedma :
    ∃ s t : State, step s = .next t ∧ t.disks[0]? ≠ s.disks[0]? :=
  ⟨{ beforeWrite with cb := [0x0A, 0, 0, 0, 0, 0x00, 0x00], pending := out [0x30] }, { afterWrite with pending := [] },
    eq_next_of_nextState (by decide +kernel), by decide⟩
theorem witness_TracesOnlyGrow :
    ∃ s t : State, step s = .next t ∧ t.log = [.unmappedPortRead 0x42] :=
  ⟨{ State.reset with pending := [.readPort 0x42] }, _, rfl, rfl⟩
theorem witness_ResetMeetsInvariant : Memory.wf [(5, 1), (0xFFFF, 2)] ∧
    ∀ dk ∈ [(⟨200, [], [(0, 1), (199, 2)]⟩ : Disk)], Disk.wf dk ∧ dk.holes = [] := by decide

end Sys2Proof.Tests
end

section
/-! PROOFS. Memory accesses, sector offsets and port addresses (20_memory.md R32 to R38). -/

namespace Sys2Proof.Machine

/-! ## Memory addresses (R32, R33) -/

theorem Memory.reduce_eq_iff (a b : Nat) : Memory.reduce a = Memory.reduce b ↔ a % 65536 = b % 65536 := Iff.rfl

@[simp] theorem Memory.byte_mod (m : Memory) (a : Nat) : Memory.byte m (a % 65536) = Memory.byte m a :=
  Memory.byte_reduce m a

/-- The addresses of a transfer no longer than the memory are distinct, where it wraps too. -/
theorem Memory.reduce_add_inj {a i j : Nat} (hi : i < Config.memSize) (hj : j < Config.memSize)
    (h : Memory.reduce (a + i) = Memory.reduce (a + j)) : i = j := by
  simp only [Memory.reduce, Config.memSize] at *
  omega

theorem Memory.readRange_getElem? (m : Memory) (a : Nat) {n i : Nat} (hi : i < n) :
    (Memory.readRange m a n)[i]? = some (Memory.byte m (a + i)) := by
  have hlt : i < (Memory.readRange m a n).length := by rwa [Memory.readRange_length]
  rw [List.getElem?_eq_getElem hlt, Memory.readRange_getElem]

theorem Memory.byte_congr (m : Memory) {a b : Nat} (h : Memory.reduce a = Memory.reduce b) :
    Memory.byte m a = Memory.byte m b := by
  rw [← Memory.byte_reduce m a, h, Memory.byte_reduce]

theorem Memory.setByte_congr (m : Memory) {a b : Nat} (v : Byte) (h : Memory.reduce a = Memory.reduce b) :
    Memory.setByte m a v = Memory.setByte m b v := by
  rw [Memory.setByte, h, Memory.setByte]

theorem readMemory_congr {a b : Nat} (s : State) (h : Memory.reduce a = Memory.reduce b) :
    readMemory a s = readMemory b s := by
  rw [readMemory, h, Memory.byte_congr s.mem h, readMemory]

theorem writeMemory_congr {a b : Nat} (v : Byte) (s : State) (h : Memory.reduce a = Memory.reduce b) :
    writeMemory a v s = writeMemory b v s := by
  rw [writeMemory, Memory.setByte_congr s.mem v h, writeMemory]

/-- Settles O12: the window and frame lemmas of `MemRead` and `MemWrite`, on a window shorter than the memory. -/
theorem memoryTransfersWrap : Obligations.MemoryTransfersWrap := by
  intro m address v hv
  refine ⟨fun i j hi hj h => ?_, fun i hi => ⟨?_, ?_⟩, Memory.readRange_length _ _ _, fun a ha => ?_⟩
  · exact Memory.reduce_add_inj (Nat.lt_trans hi (by decide)) (Nat.lt_trans hj (by decide)) h
  · rw [Memory.byte_mod, Memory.readRange_getElem? m _ hi]
  · have hiv : i < v.length := by rwa [hv]
    have hfits : v.length ≤ Config.memSize := by rw [hv]; decide
    rw [Memory.byte_mod, Memory.byte_writeRange_in v m _ i hiv hfits, List.getElem?_eq_getElem hiv]
  · exact Memory.byte_writeRange_out v m _ a fun i hi => ha i (by rwa [← hv])

/-- Settles O35: both transactions see an address only through `Memory.reduce`. -/
theorem memoryAddressesAreReduced : Obligations.MemoryAddressesAreReduced := by
  intro a b v s h
  have hab : Memory.reduce a = Memory.reduce b := (Memory.reduce_eq_iff a b).2 h
  exact ⟨congrArg Host.Outcome.next (readMemory_congr s hab), congrArg Host.Outcome.next (writeMemory_congr v s hab)⟩

/-! ## Port addresses (R34) -/

theorem readPort_congr {a b : Nat} (s : State) (h : portOf a = portOf b) : readPort a s = readPort b s := by
  rw [readPort, h, readPort]

theorem writePort_congr {a b : Nat} (v : Byte) (s : State) (h : portOf a = portOf b) :
    writePort a v s = writePort b v s := by
  rw [writePort, h, writePort]

/-- Settles O34: both transactions see an address only through `portOf`. -/
theorem portAddressesAreMasked : Obligations.PortAddressesAreMasked := by
  intro a b v s h
  have hab : portOf a = portOf b := (portOf_eq_iff a b).2 h
  exact ⟨congrArg Host.Outcome.next (readPort_congr s hab), writePort_congr v s hab⟩

/-! ## Sector offsets (R38) -/

theorem sectorOffset_eq (track sector : U16) :
    sectorOffset track sector = (track.toNat * 64 + sector.toNat) * 128 := rfl

/-- The highest offset is that of track 0xFFFF, sector 0xFFFF. -/
theorem sectorOffset_le (track sector : U16) : sectorOffset track sector ≤ 545251200 := by
  have htrack := track.isLt
  have hsector := sector.isLt
  rw [sectorOffset_eq]
  omega

theorem sectorSize_dvd_sectorOffset (track sector : U16) : 128 ∣ sectorOffset track sector :=
  Nat.dvd_mul_left _ _

theorem Disk.read_getElem? (dk : Disk) {off n i : Nat} (hn : off + n ≤ dk.len) (hi : i < n) :
    (Disk.read dk off n)[i]? = some (Disk.byte dk (off + i)) := by
  have hlt : i < (Disk.read dk off n).length := by rw [Disk.read_length]; omega
  rw [List.getElem?_eq_getElem hlt, Disk.read_getElem]

/-- Settles O10: the range from the two 16-bit operands, the sector's bytes from a read the disk holds whole. -/
theorem sectorOffsetFormula : Obligations.SectorOffsetFormula := by
  intro track sector
  have hle := sectorOffset_le track sector
  refine ⟨sectorOffset_eq track sector, hle, Nat.lt_of_le_of_lt hle (by decide),
    sectorSize_dvd_sectorOffset track sector, fun dk hlen => ⟨?_, fun i hi => ?_⟩⟩
  · exact (Disk.read_whole_iff dk _ 128 (by decide)).2 hlen
  · exact Disk.read_getElem? dk hlen hi

end Sys2Proof.Machine
end

section
/-! PROOFS. Frame lengths, operands and response values (30_encoding.md R52, R55, R60). -/

namespace Sys2Proof

/-! ## The code map (R52) -/

/-- The bytes that name no command are those outside the code map, whatever follows them. -/
theorem commandOf_eq_none_iff (code : Byte) (f : List Byte) :
    commandOf code f = none ↔ code ∉ ([1, 2, 3, 4, 5, 6, 7, 9, 10] : List Byte) := by
  simp [commandOf, ite_eq_iff]

theorem frameLen_eq_unrecognised {code : Byte} (h : code ∉ ([1, 2, 3, 4, 5, 6, 7, 9, 10] : List Byte)) :
    frameLen code = .unrecognised := by
  simp only [frameLen, (commandOf_eq_none_iff code []).2 h]

/-- Settles O4: one case per row of the table; the last holds the bytes outside the code map. -/
theorem frameLengthTable : Obligations.FrameLengthTable := by
  intro code
  split_ifs with hK hS hD hU
  · obtain rfl | rfl := hK <;> rfl
  · obtain rfl | rfl := hS <;> rfl
  · obtain rfl | rfl := hD <;> rfl
  · obtain rfl | rfl | rfl := hU <;> rfl
  · apply frameLen_eq_unrecognised
    simp only [List.mem_cons, List.not_mem_nil]
    tauto

/-! ## Operands (R55) -/

/-- A buffer that holds one whole frame and nothing behind it. -/
theorem decode_of_whole_frame {code : Byte} {params : List Byte} {i : Instr} {n : Nat}
    (hc : commandOf code (code :: params) = some i) (hn : i.frameLength = some n) (hlen : params.length + 1 = n) :
    decode (code :: params) = .complete i n := by
  have h := decode_of_frame (rest := []) (by rwa [List.append_nil]) hn hlen
  rwa [List.append_nil] at h

/-- Settles O5: each operand is `joinBytes` of its two bytes, the one that arrives first the low one. -/
theorem operandsAreLittleEndianPairs : Obligations.OperandsAreLittleEndianPairs := by
  intro d sLo sHi tLo tHi aLo aHi
  refine ⟨joinBytes sLo sHi, joinBytes tLo tHi, joinBytes aLo aHi, joinBytes_toNat sLo sHi, joinBytes_toNat tLo tHi,
    joinBytes_toNat aLo aHi, ?readsum, ?writesum, ?readdma, ?writedma, ?const, ?conin⟩
  all_goals exact decode_of_whole_frame rfl rfl rfl

end Sys2Proof

namespace Sys2Proof.Machine

/-! ## Response values (R60) -/

@[simp] theorem constResponse_nil : constResponse [] = [Config.notReady] := rfl

@[simp] theorem constResponse_cons (k : Byte) (keys : List Byte) : constResponse (k :: keys) = [Config.ready] := rfl

@[simp] theorem coninResponse_nil : coninResponse [] = [Config.notReady] := rfl

@[simp] theorem coninResponse_cons (k : Byte) (keys : List Byte) : coninResponse (k :: keys) = [Config.ready, k] := rfl

/-- READDMA's status is its last byte, behind the fillers (42_disk_commands.md R88). -/
theorem readdmaResponse_getLast? : readdmaResponse.getLast? = some Config.success := rfl

/-- READSUM's status is its first byte, before the sector (42_disk_commands.md R92). -/
theorem readsumResponse_head? (sector : List Byte) : (readsumResponse sector).head? = some Config.success := rfl

/-- Settles O7: the five values by their definitions, and the status each response carries. -/
theorem responseStatusValues : Obligations.ResponseStatusValues := by
  refine ⟨⟨rfl, rfl, rfl, rfl, rfl⟩, fun k keys sector => ?_⟩
  have hconin : (coninResponse (k :: keys)).head? = some Config.ready := by rw [coninResponse_cons, List.head?_cons]
  exact ⟨constResponse_nil, constResponse_cons k keys, coninResponse_nil, hconin, readdmaResponse_getLast?, rfl,
    readsumResponse_head? sector⟩

end Sys2Proof.Machine
end

section
/-! PROOFS. Console commands and the refused commands (41_console_commands.md R80 to R83; 42_disk_commands.md R94 to R96). -/

namespace Sys2Proof.Machine

/-! ## CONST (R80) -/

theorem exec_const (s : State) : exec .const s = .next (s.respond (constResponse s.kq)) := rfl

theorem constResponse_eq (kq : List Byte) : constResponse kq = [if kq = [] then Config.notReady else Config.ready] := by
  cases kq with
  | nil => rw [constResponse_nil, if_pos rfl]
  | cons k rest => rw [constResponse_cons, if_neg (List.cons_ne_nil k rest)]

/-- Settles O8: CONST only responds, and its response is one status byte. -/
theorem constAnswersKeyStatus : Obligations.ConstAnswersKeyStatus := by
  intro s
  rw [exec_const, constResponse_eq]
  rfl

/-! ## CONIN (R81) -/

theorem exec_conin (s : State) :
    exec .conin s = .next { s.respond (coninResponse s.kq) with kq := s.kq.tail } := rfl

theorem exec_conin_of_key {s : State} {k : Byte} {rest : List Byte} (h : s.kq = k :: rest) :
    exec .conin s = .next { s.respond [Config.ready, k] with kq := rest } := by
  rw [exec_conin, h, coninResponse_cons, List.tail_cons]

/-- An empty key queue stays as it is: its tail is itself. -/
theorem exec_conin_of_no_key {s : State} (h : s.kq = []) : exec .conin s = .next (s.respond [Config.notReady]) := by
  have hresponse : coninResponse s.kq = [Config.notReady] := by rw [h, coninResponse_nil]
  have htail : s.kq.tail = s.kq := by rw [h, List.tail_nil]
  rw [exec_conin, hresponse, htail]
  rfl

/-- Settles O9: one lemma for a waiting key, one for an empty queue. -/
theorem coninPopsOldestKey : Obligations.ConinPopsOldestKey :=
  ⟨fun _ _ _ h => exec_conin_of_key h, fun _ h => exec_conin_of_no_key h⟩

/-! ## The commands no source describes (R83, R94, R95, R96) -/

@[simp] theorem exec_read (s : State) : exec .read s = .refused (.unspecifiedCommand Config.cmdRead) := rfl

@[simp] theorem exec_write (s : State) : exec .write s = .refused (.unspecifiedCommand Config.cmdWrite) := rfl

@[simp] theorem exec_serout (s : State) : exec .serout s = .refused (.unspecifiedCommand Config.cmdSerout) := rfl

@[simp] theorem exec_writesum (d : Byte) (sector track : U16) (s : State) :
    exec (.writesum d sector track) s = .refused (.unspecifiedHandler Config.cmdWritesum) := rfl

/-- Settles O20: each refusal names the command's own code, whatever the state and the operands. -/
theorem undescribedCommandsRefused : Obligations.UndescribedCommandsRefused :=
  fun s => ⟨exec_read s, exec_write s, exec_serout s, fun d sector track => exec_writesum d sector track s⟩

end Sys2Proof.Machine
end

section
/-! PROOFS. The checksum, and what a written sector reads back as (42_disk_commands.md R93, R97). -/

namespace Sys2Proof.Machine

/-! ## What a store write leaves of a disk (20_memory.md R41, 60_exceptions.md R126) -/

/-- Every byte of `dk` outside the window `off ..< off + n` stands in `dk'` too. -/
def Disk.keptOutside (dk dk' : Disk) (off n : Nat) : Prop :=
  ∀ o < dk.len, ¬ (off ≤ o ∧ o < off + n) → o < dk'.len ∧ Disk.byte dk' o = Disk.byte dk o

theorem Disk.keptOutside_write (dk : Disk) (k off : Nat) (bs : List Byte) :
    Disk.keptOutside dk (Disk.write dk k off bs) off bs.length := by
  intro o ho hout
  refine ⟨?_, Disk.byte_write_out dk k off o bs hout (by omega)⟩
  rw [Disk.write_len]
  omega

theorem Disk.keptOutside_writeShort (dk : Disk) (k off n : Nat) :
    Disk.keptOutside dk (Disk.writeShort dk k off n) off n :=
  fun o ho hout => Disk.byte_writeShort_out dk k off n o ho hout

/-- A range that the disk holds and the window does not meet is still held, and reads the same. -/
theorem Disk.keptOutside.read_eq {dk dk' : Disk} {off n lo m : Nat} (hkept : Disk.keptOutside dk dk' off n)
    (hm : 0 < m) (hheld : lo + m ≤ dk.len) (hdisjoint : ¬ (off < lo + m ∧ lo < off + n)) :
    lo + m ≤ dk'.len ∧ Disk.read dk' lo m = Disk.read dk lo m := by
  have hbyte : ∀ o, lo ≤ o → o < lo + m → o < dk'.len ∧ Disk.byte dk' o = Disk.byte dk o :=
    fun o hlo hhi => hkept o (by omega) (by omega)
  have hlast := (hbyte (lo + m - 1) (by omega) (by omega)).1
  have hheld' : lo + m ≤ dk'.len := by omega
  exact ⟨hheld', Disk.read_congr hheld' hheld fun o hlo hhi => (hbyte o hlo hhi).2⟩

/-! ## What a command and a step do to the disks -/

/-- The disks of `t` are those of `s`, but that the disk `d` was rewritten in the window `off ..< off + 128`. -/
def State.rewrites (s t : State) (d : Byte) (off : Nat) : Prop :=
  ∃ dk dk', s.disk? d = some dk ∧ t.disks = s.disks.set d.toNat dk' ∧ Disk.keptOutside dk dk' off 128

/-- Only WRITEDMA changes a disk, and only in its window, whether it completes or falls short. -/
theorem exec_disks_cases {i : Instr} {s t : State} (h : exec i s = .next t) :
    t.disks = s.disks ∨
    ∃ d sector track address, i = .writedma d sector track address ∧ s.rewrites t d (sectorOffset track sector) := by
  cases i with
  | read => simp at h
  | write => simp at h
  | serout => simp at h
  | writesum => simp at h
  | const => rw [exec_const, Host.Outcome.next.injEq] at h; subst h; exact .inl rfl
  | conin => rw [exec_conin, Host.Outcome.next.injEq] at h; subst h; exact .inl rfl
  | readsum d sector track =>
    obtain ⟨_, he⟩ | ⟨dk, _, ⟨_, he⟩ | ⟨_, he⟩⟩ := execReadsum_cases d sector track s <;>
    · rw [exec, he, Host.Outcome.next.injEq] at h; subst h; exact .inl rfl
  | readdma d sector track address =>
    obtain ⟨_, he⟩ | ⟨dk, _, ⟨_, he⟩ | ⟨_, he⟩⟩ := execReaddma_cases d sector track address s <;>
    · rw [exec, he, Host.Outcome.next.injEq] at h; subst h; exact .inl rfl
  | writedma d sector track address =>
    obtain ⟨_, he⟩ | ⟨dk, hdk, ⟨_, he⟩ | ⟨_, he⟩⟩ := execWritedma_cases d sector track address s
    all_goals rw [exec, he, Host.Outcome.next.injEq] at h; subst h
    · exact .inl rfl
    · have hkept := Disk.keptOutside_write dk s.draws (sectorOffset track sector) (Memory.readRange s.mem address.toNat 128)
      rw [Memory.readRange_length] at hkept
      exact .inr ⟨d, sector, track, address, rfl, dk, _, hdk, rfl, hkept⟩
    · exact .inr ⟨d, sector, track, address, rfl, dk, _, hdk, rfl, Disk.keptOutside_writeShort _ _ _ _⟩

/-- The disks change only in a step that completes a WRITEDMA. -/
theorem step_disks_cases {s t : State} (h : step s = .next t) :
    t.disks = s.disks ∨
    ∃ d sector track address, s.command? = some (.writedma d sector track address) ∧
      s.rewrites t d (sectorOffset track sector) := by
  cases (step_next_cases h).2 with
  | command _ _ _ i _ _ _ hcommand _ _ _ hexec =>
    obtain hsame | ⟨d, sector, track, address, rfl, hrewrites⟩ := exec_disks_cases hexec
    · exact .inl hsame
    · exact .inr ⟨d, sector, track, address, hcommand, hrewrites⟩
  | _ => exact .inl rfl

/-! ## The sector a disk holds -/

theorem State.sector?_eq_some_iff {s : State} {d : Byte} {sector track : U16} {p : List Byte} :
    s.sector? d sector track = some p ↔
      ∃ dk, s.disk? d = some dk ∧ sectorOffset track sector + 128 ≤ dk.len ∧
        Disk.read dk (sectorOffset track sector) 128 = p := by
  simp [State.sector?, Option.bind_eq_some_iff]

theorem State.disk?_of_set_same {s t : State} {d : Byte} {dk dk' : Disk} (hdk : s.disk? d = some dk)
    (hdisks : t.disks = s.disks.set d.toNat dk') : t.disk? d = some dk' := by
  obtain ⟨hlt, _⟩ := List.getElem?_eq_some_iff.1 hdk
  rw [State.disk?, hdisks, List.getElem?_set_self hlt]

theorem State.disk?_of_set_other {s t : State} {d d' : Byte} {dk' : Disk} (hne : d' ≠ d)
    (hdisks : t.disks = s.disks.set d'.toNat dk') : t.disk? d = s.disk? d := by
  rw [State.disk?, hdisks, List.getElem?_set_ne fun h => hne (BitVec.eq_of_toNat_eq h), State.disk?]

/-- A rewritten window leaves every sector that it does not meet. -/
theorem State.rewrites.keeps_sector {s t : State} {d d' : Byte} {off : Nat} {sector track : U16} {p : List Byte}
    (hrewrites : s.rewrites t d' off) (hsector : s.sector? d sector track = some p)
    (hdisjoint : ¬ (d' = d ∧ off < sectorOffset track sector + 128 ∧ sectorOffset track sector < off + 128)) :
    t.sector? d sector track = some p := by
  obtain ⟨dk, hdk, hheld, hread⟩ := State.sector?_eq_some_iff.1 hsector
  obtain ⟨dk₀, dk', hdk₀, hdisks, hkept⟩ := hrewrites
  by_cases hd : d' = d
  · subst hd
    obtain rfl : dk₀ = dk := Option.some.inj (hdk₀.symm.trans hdk)
    obtain ⟨hheld', hread'⟩ := hkept.read_eq (by omega) hheld fun hmeet => hdisjoint ⟨rfl, hmeet⟩
    exact State.sector?_eq_some_iff.2 ⟨dk', State.disk?_of_set_same hdk hdisks, hheld', hread'.trans hread⟩
  · exact State.sector?_eq_some_iff.2 ⟨dk, (State.disk?_of_set_other hd hdisks).trans hdk, hheld, hread⟩

theorem State.overwrites_iff {s : State} {d d' : Byte} {off : Nat} {sector track address : U16}
    (h : s.command? = some (.writedma d' sector track address)) :
    s.overwrites d off ↔
      d' = d ∧ sectorOffset track sector < off + 128 ∧ off < sectorOffset track sector + 128 := by
  simp only [State.overwrites, h, Config.sectorSize]

theorem step_keeps_sector {s t : State} {d : Byte} {sector track : U16} {p : List Byte}
    (hother : ¬ s.overwrites d (sectorOffset track sector)) (hsector : s.sector? d sector track = some p)
    (h : step s = .next t) : t.sector? d sector track = some p := by
  obtain hsame | ⟨d', sector', track', address, hcommand, hrewrites⟩ := step_disks_cases h
  · rwa [State.sector?, State.disk?, hsame]
  · exact hrewrites.keeps_sector hsector ((State.overwrites_iff hcommand).not.1 hother)

/-- What holds at the start of a run and is kept by each of its steps holds at its end. -/
theorem Run.keeps_invariant {P I : State → Prop} {s t : State} (hrun : Run P s t)
    (hkeeps : ∀ x y, P x → I x → Machine.step x = .next y → I y) (hstart : I s) : I t := by
  induction hrun with
  | here _ => exact hstart
  | step hP hstep _ ih => exact ih (hkeeps _ _ hP hstart hstep)

/-! ## The disk commands on a sector (R88, R90, R92) -/

/-- A WRITEDMA that did not fault left the memory window in its sector. -/
theorem exec_writedma_sector {s t : State} {d : Byte} {sector track address : U16}
    (h : exec (.writedma d sector track address) s = .next t) (hrunning : t.halt = none) :
    t.sector? d sector track = some (Memory.readRange s.mem address.toNat 128) := by
  obtain ⟨_, he⟩ | ⟨dk, hdk, ⟨_, he⟩ | ⟨_, he⟩⟩ := execWritedma_cases d sector track address s
  all_goals rw [exec, he, Host.Outcome.next.injEq] at h; subst h
  case inl => simp at hrunning
  case inr.inr => simp at hrunning
  case inr.inl =>
    refine State.sector?_eq_some_iff.2 ⟨_, State.disk?_of_set_same hdk rfl, ?_, ?_⟩
    · rw [Disk.write_len, Memory.readRange_length]
      exact Nat.le_max_right _ _
    · have hread := Disk.read_write dk s.draws (sectorOffset track sector) (Memory.readRange s.mem address.toNat 128)
      rwa [Memory.readRange_length] at hread

theorem State.sector?_length {s : State} {d : Byte} {sector track : U16} {p : List Byte}
    (h : s.sector? d sector track = some p) : p.length = 128 := by
  obtain ⟨dk, _, hheld, rfl⟩ := State.sector?_eq_some_iff.1 h
  exact (Disk.read_whole_iff dk _ 128 (by omega)).2 hheld

theorem loadSector_of_sector {s : State} {d : Byte} {sector track : U16} {p : List Byte}
    (h : s.sector? d sector track = some p) : loadSector d sector track s = .ok (s.fillScratch p) := by
  obtain ⟨dk, hdk, hheld, rfl⟩ := State.sector?_eq_some_iff.1 h
  obtain ⟨hnone, _⟩ | ⟨dk₀, hdk₀, ⟨hshort, _⟩ | ⟨_, he⟩⟩ := loadSector_cases d sector track s
  · rw [hdk] at hnone; cases hnone
  · obtain rfl : dk₀ = dk := Option.some.inj (hdk₀.symm.trans hdk)
    omega
  · obtain rfl : dk₀ = dk := Option.some.inj (hdk₀.symm.trans hdk)
    exact he

theorem exec_readdma_of_sector {s : State} {d : Byte} {sector track : U16} {p : List Byte} (address : U16)
    (h : s.sector? d sector track = some p) :
    exec (.readdma d sector track address) s =
      .next (((s.fillScratch p).scratchToMemory address).respond readdmaResponse) := by
  simp only [exec, execReaddma, loadSector_of_sector h]

theorem exec_readsum_of_sector {s : State} {d : Byte} {sector track : U16} {p : List Byte}
    (h : s.sector? d sector track = some p) :
    exec (.readsum d sector track) s = .next ((s.fillScratch p).respond (readsumResponse p)) := by
  simp only [exec, execReadsum, loadSector_of_sector h, State.fillScratch_scratch]

/-- Settles O21: the sector holds the window after the write, every step of the run keeps it there, and a read of a sector
that the disk holds brings it back. -/
theorem writtenSectorReadsBack : Obligations.WrittenSectorReadsBack := by
  intro s t u d sector track address address' p hp hwrite ht hrun hu _
  have hwritten : t.sector? d sector track = some p := hp ▸ exec_writedma_sector hwrite ht
  have hsector : u.sector? d sector track = some p :=
    hrun.keeps_invariant (fun _ _ hother hheld hstep => step_keeps_sector hother hheld hstep) hwritten
  refine ⟨⟨_, exec_readdma_of_sector address' hsector, hu, ?_⟩, ⟨_, exec_readsum_of_sector hsector, hu, rfl⟩⟩
  have hlen := State.sector?_length hsector
  have hback := Memory.readRange_writeRange u.mem address'.toNat p (by rw [hlen]; decide)
  rwa [hlen] at hback

/-! ## The checksum (R93) -/

theorem byteSum_le_of_sector {bs : List Byte} (h : bs.length = 128) : byteSum bs ≤ 32640 := by
  have hle := byteSum_le bs
  rwa [h] at hle

/-- The sum of 128 bytes is below every modulus from 2^15 on. -/
theorem byteSum_mod_two_pow {bs : List Byte} (h : bs.length = 128) {w : Nat} (hw : 15 ≤ w) :
    byteSum bs % 2 ^ w = byteSum bs := by
  apply Nat.mod_eq_of_lt
  calc byteSum bs ≤ 32640 := byteSum_le_of_sector h
    _ < 2 ^ 15 := by decide
    _ ≤ 2 ^ w := Nat.pow_le_pow_right (by decide) hw

theorem checksum_toNat_of_sector {bs : List Byte} (h : bs.length = 128) : (checksum bs).toNat = byteSum bs := by
  rw [checksum, BitVec.toNat_ofNat, byteSum_mod_two_pow h (by decide)]

/-- Behind the status and the sector, READSUM answers the two bytes of the checksum (R92). -/
theorem readsumResponse_drop {bs : List Byte} (h : bs.length = 128) :
    (readsumResponse bs).drop 129 = [lowByte (checksum bs), highByte (checksum bs)] := by
  rw [readsumResponse, List.cons_append, List.drop_succ_cons, List.drop_left' h]

theorem byteSum_replicate (n : Nat) (b : Byte) : byteSum (List.replicate n b) = n * b.toNat := by
  simp [byteSum]

/-- Settles O16: 128 bytes sum to at most 128 × 255 = 32640, below 2^15 and so below every modulus in question. -/
theorem checksumNeverWraps : Obligations.ChecksumNeverWraps := by
  refine ⟨fun bs h => ?_, ?_, ?_⟩
  · have hsum : (bs.map BitVec.toNat).sum = byteSum bs := rfl
    have hle := byteSum_le_of_sector h
    have hexact := checksum_toNat_of_sector h
    rw [hsum]
    refine ⟨?_, hexact, hle, ?_, fun w hw => ?_, ?_⟩
    · rw [hexact, byteSum_mod_two_pow h (by decide)]
    · rw [highByte_toNat, hexact]
      omega
    · rw [hexact, byteSum_mod_two_pow h hw]
    · rw [readsumResponse_drop h, lowByte, highByte, hexact]
  · rw [checksum, byteSum_replicate]
    rfl
  · rw [checksum, byteSum_replicate]
    rfl

end Sys2Proof.Machine
end

section
/-! PROOFS. The bus transactions as whole next states (43_port_interface.md R101 to R106). -/

namespace Sys2Proof.Machine

/-! ## Reads of the command port (R101) -/

theorem popResponse_of_nil {s : State} (h : s.rq = []) : popResponse s = s.answer (.port Config.cmdPort 0x00) := by
  simp only [popResponse, h]

theorem popResponse_of_cons {s : State} {b : Byte} {q : List Byte} (h : s.rq = b :: q) :
    popResponse s = { s with rq := q }.answer (.port Config.cmdPort b) := by
  simp only [popResponse, h]

theorem readPort_of_cmdPort {address : Nat} (h : address % 256 = 0) (s : State) : readPort address s = popResponse s := by
  rw [readPort, if_pos ((portOf_eq_cmdPort_iff address).2 h)]

theorem step_readPort_of_cmdPort {s : State} {address : Nat} {rest : List Transaction} (hrunning : s.halt = none)
    (hpending : s.pending = .readPort address :: rest) (h : address % 256 = 0) :
    step s = .next (popResponse { s with pending := rest }) := by
  rw [step_transaction hrunning hpending, transact, readPort_of_cmdPort h]

/-- Settles O27: the step pops the response queue, whose two cases are `popResponse`'s. -/
theorem commandPortReadPops : Obligations.CommandPortReadPops := by
  intro s address rest hrunning hpending hport
  rw [step_readPort_of_cmdPort hrunning hpending hport]
  refine ⟨fun b q hrq => ?_, fun hrq => ?_⟩
  · rw [popResponse_of_cons (s := { s with pending := rest }) hrq, State.answer]
  · rw [popResponse_of_nil (s := { s with pending := rest }) hrq, State.answer]

/-! ## Memory transactions (R103, R104) -/

/-- Settles O29: the answered byte stands at the reduced address, which names the same byte as the address itself. -/
theorem memoryReadReturnsByte : Obligations.MemoryReadReturnsByte := by
  intro s address rest hrunning hpending
  rw [step_transaction hrunning hpending, Memory.byte_mod]
  rfl

theorem Memory.byte_setByte_same (m : Memory) (a : Nat) (b : Byte) : Memory.byte (Memory.setByte m a b) a = b := by
  rw [Memory.byte_setByte, if_pos rfl]

theorem Memory.byte_setByte_other (m : Memory) {a a' : Nat} (b : Byte) (h : a' % 65536 ≠ a % 65536) :
    Memory.byte (Memory.setByte m a b) a' = Memory.byte m a' := by
  rw [Memory.byte_setByte, if_neg fun hreduce => h ((Memory.reduce_eq_iff a a').1 hreduce).symm]

/-- Settles O30: the new memory is `Memory.setByte`'s, read back at the written address and at the others. -/
theorem memoryWriteSetsByte : Obligations.MemoryWriteSetsByte := by
  intro s address v rest hrunning hpending
  refine ⟨Memory.setByte s.mem address v, ?_, ?_, fun a ha => ?_⟩
  · rw [step_transaction hrunning hpending, transact, writeMemory]
  · rw [Memory.byte_mod, Memory.byte_setByte_same]
  · exact Memory.byte_setByte_other s.mem v ha

/-! ## Writes of the console port (R106) -/

theorem writePort_of_consolePort {address : Nat} (h : address % 256 = 0x80) (v : Byte) (s : State) :
    writePort address v s = .next (s.emit v) := by
  rw [writePort, if_pos ((portOf_eq_consolePort_iff address).2 h)]

/-- Settles O31: a write that is routed to the console port emits its value. -/
theorem consoleWriteEmits : Obligations.ConsoleWriteEmits := by
  intro s address v rest hrunning hpending hport
  rw [step_transaction hrunning hpending, transact, writePort_of_consolePort hport, State.emit]

end Sys2Proof.Machine
end

section
/-! PROOFS. The decoder and the encoder are inverse to each other; byte 0 alone decides a frame's length (30_encoding.md R51 to R55). -/

namespace Sys2Proof

/-! ## From a command to its frame and back (R51, R62) -/

theorem frameLength_of_wellFormed {i : Instr} (h : i.wellFormed = true) : i.frameLength = some (encode i).length := by
  cases i with
  | read => exact Laws.FrameSize.read h
  | write => exact Laws.FrameSize.write h
  | serout => exact Laws.FrameSize.serout h
  | _ => rfl

theorem wellFormed_of_frameLength {i : Instr} {n : Nat} (h : i.frameLength = some n) : i.wellFormed = true := by
  cases i with
  | read => simp [Instr.frameLength] at h
  | write => simp [Instr.frameLength] at h
  | serout => simp [Instr.frameLength] at h
  | _ => rfl

/-- The operands assembled from a frame are those it was written from, whatever follows it. -/
theorem commandOf_encode (i : Instr) :
    ∃ code params, encode i = code :: params ∧ ∀ rest, commandOf code (code :: params ++ rest) = some i := by
  cases i
  case readsum | writesum =>
    refine ⟨_, _, rfl, fun rest => ?_⟩
    simp [commandOf, encodeSector, operandDisk, operandSector, operandTrack, frameByte]
  case readdma | writedma =>
    refine ⟨_, _, rfl, fun rest => ?_⟩
    simp [commandOf, encodeSector, operandDisk, operandSector, operandTrack, operandAddress, frameByte]
  all_goals exact ⟨_, _, rfl, fun rest => rfl⟩

/-- Settles O1: the frame's code and operands are read back as written, and its length is the command's. -/
theorem decodeReadsEncodedFrame : Obligations.DecodeReadsEncodedFrame := by
  intro i rest hwf
  obtain ⟨code, params, hencode, hcommand⟩ := commandOf_encode i
  have hlength := frameLength_of_wellFormed hwf
  rw [hencode] at hlength ⊢
  exact decode_of_frame (hcommand rest) hlength rfl

theorem decode_encode {i : Instr} (hwf : i.wellFormed = true) : decode (encode i) = .complete i (encode i).length := by
  simpa using decodeReadsEncodedFrame i [] hwf

/-! ## From a frame to its command and back (R50, R55) -/

/-- The parameter bytes that the operands `d`, `sector` and `track` are assembled from. -/
theorem encodeSector_operands {code : Byte} {params : List Byte} (h : 5 ≤ params.length) :
    encodeSector (operandDisk (code :: params)) (operandSector (code :: params)) (operandTrack (code :: params)) =
      params.take 5 := by
  match params, h with
  | _ :: _ :: _ :: _ :: _ :: _, _ =>
    simp [encodeSector, operandDisk, operandSector, operandTrack, frameByte]

/-- The parameter bytes of format D: `address` behind the other operands. -/
theorem encodeDma_operands {code : Byte} {params : List Byte} (h : 7 ≤ params.length) :
    encodeSector (operandDisk (code :: params)) (operandSector (code :: params)) (operandTrack (code :: params)) ++
      [lowByte (operandAddress (code :: params)), highByte (operandAddress (code :: params))] = params.take 7 := by
  rw [encodeSector_operands (by omega)]
  match params, h with
  | _ :: _ :: _ :: _ :: _ :: _ :: _ :: _, _ => simp [operandAddress, frameByte]

/-- A whole frame is the encoding of the command that its code and operands name. -/
theorem encode_of_commandOf {code : Byte} {params : List Byte} {i : Instr} {n : Nat}
    (hcommand : commandOf code (code :: params) = some i) (hlength : i.frameLength = some n)
    (hheld : n ≤ params.length + 1) : encode i = (code :: params).take n := by
  unfold commandOf at hcommand
  split_ifs at hcommand
  all_goals
    subst code
    obtain rfl := Option.some.inj hcommand
    rw [Instr.frameLength] at hlength
    cases hlength
  · rfl
  · rfl
  · exact congrArg (List.cons Config.cmdReadsum) (encodeSector_operands (Nat.le_of_succ_le_succ hheld))
  · exact congrArg (List.cons Config.cmdWritesum) (encodeSector_operands (Nat.le_of_succ_le_succ hheld))
  · exact congrArg (List.cons Config.cmdReaddma) (encodeDma_operands (Nat.le_of_succ_le_succ hheld))
  · exact congrArg (List.cons Config.cmdWritedma) (encodeDma_operands (Nat.le_of_succ_le_succ hheld))

/-- Settles O2: the decoder's command is the one its code and operands name, and its length is the frame's. -/
theorem encodeGivesDecodedFrame : Obligations.EncodeGivesDecodedFrame := by
  intro f i n h
  obtain ⟨code, params, rfl, hcommand, hlength, hheld⟩ := decode_eq_complete h
  exact ⟨wellFormed_of_frameLength hlength, hheld, encode_of_commandOf hcommand hlength hheld⟩

/-! ## The length of a frame (R52, R53) -/

theorem frameLen_eq_unspecified {code : Byte} {f : List Byte} {i : Instr} (hcommand : commandOf code f = some i)
    (hlength : i.frameLength = none) : frameLen code = .unspecified := by
  have hcode := commandOf_frameLength code [] f
  rw [hcommand, Option.map_some, hlength, Option.map_eq_some_iff] at hcode
  obtain ⟨j, hj, hlength'⟩ := hcode
  simp only [frameLen, hj, hlength']

theorem decode_eq_unspecified_frameLen {code : Byte} {params : List Byte} {i : Instr}
    (h : decode (code :: params) = .unspecified i) : frameLen code = .unspecified := by
  simp only [decode] at h
  split at h
  · cases h
  · next j hcommand =>
    split at h
    · next hlength => exact frameLen_eq_unspecified hcommand hlength
    · split at h <;> cases h

/-- Settles O6: each answer of the decoder comes from the frame length of byte 0. -/
theorem firstByteDecidesLength : Obligations.FirstByteDecidesLength := by
  intro code params
  cases h : decode (code :: params) with
  | incomplete => exact decode_eq_incomplete h
  | unrecognised c =>
    obtain ⟨hcode, hlen⟩ := decode_eq_unrecognised h
    obtain rfl : code = c := Option.some.inj hcode
    exact ⟨rfl, hlen⟩
  | unspecified i => exact decode_eq_unspecified_frameLen h
  | complete i n =>
    obtain ⟨c, p, hf, hcommand, hlength, hheld⟩ := decode_eq_complete h
    obtain ⟨rfl, rfl⟩ := List.cons.inj hf
    exact ⟨frameLen_eq_length hcommand hlength, hheld⟩

/-! ## Frames written out -/

/-- Settles O3: the whole frames are the encodings of their commands; of the others byte 0 says why they are none. -/
theorem writtenOutFramesDecode : Obligations.WrittenOutFramesDecode :=
  ⟨decode_encode (i := .const) rfl, decode_encode (i := .conin) rfl, decode_encode (i := .readsum 0 5 1) rfl,
    decode_encode (i := .writesum 0 772 258) rfl, decode_encode (i := .readdma 0 5 1 0xFFC0) rfl,
    decode_encode (i := .writedma 0 772 258 0x1234) rfl, rfl, rfl, rfl, rfl, rfl⟩

end Sys2Proof
end

section
/-! PROOFS. The framer: what a write to the command port does, and a frame written byte by byte (40_command_framer.md R70 to R78). -/

namespace Sys2Proof

/-! ## Unfinished and unknown frames (R72, R74) -/

theorem decode_of_not_code {code : Byte} (params : List Byte) (h : code ∉ ([1, 2, 3, 4, 5, 6, 7, 9, 10] : List Byte)) :
    decode (code :: params) = .unrecognised code := by
  simp only [decode, (commandOf_eq_none_iff code _).2 h]

/-- Fewer bytes than byte 0 asks for are an unfinished frame: every other answer of the decoder has another length. -/
theorem decode_of_short {code : Byte} {params : List Byte} {n : Nat} (hlen : frameLen code = .length n)
    (hshort : params.length + 1 < n) : decode (code :: params) = .incomplete := by
  have hfirst := firstByteDecidesLength code params
  cases hdecode : decode (code :: params) with
  | incomplete => rfl
  | unrecognised c => simp [hdecode, hlen] at hfirst
  | unspecified i => simp [hdecode, hlen] at hfirst
  | complete i m =>
    simp only [hdecode, hlen, FrameLen.length.injEq] at hfirst
    omega

/-- The first bytes of a frame, one at least and not all, are an unfinished frame. -/
theorem decode_of_frame_start {i : Instr} (hwf : i.wellFormed = true) {p q : List Byte} (hframe : encode i = p ++ q)
    (hp : p ≠ []) (hq : q ≠ []) : decode p = .incomplete := by
  obtain ⟨code, params, rfl⟩ := List.exists_cons_of_ne_nil hp
  obtain ⟨code', params', hencode, hcommand⟩ := commandOf_encode i
  obtain ⟨rfl, -⟩ : code' = code ∧ _ := List.cons.inj (hencode.symm.trans hframe)
  refine decode_of_short (frameLen_eq_length (hcommand []) (frameLength_of_wellFormed hwf)) ?_
  rw [hframe, List.length_append, List.length_cons]
  exact Nat.lt_add_of_pos_right (List.length_pos_iff.2 hq)

end Sys2Proof

namespace Sys2Proof.Machine

/-! ## A write to the command port (R70, R76) -/

theorem writePort_of_cmdPort {address : Nat} (h : address % 256 = 0) (v : Byte) (s : State) :
    writePort address v s = cmdWrite v s := by
  have hport := (portOf_eq_cmdPort_iff address).2 h
  rw [writePort, hport, if_neg (by decide), if_pos rfl]

theorem step_cmdWrite {s : State} {address : Nat} {v : Byte} {rest : List Transaction} (hrunning : s.halt = none)
    (hpending : s.pending = .writePort address v :: rest) (hport : address % 256 = 0) :
    step s = cmdWrite v { s with pending := rest } := by
  rw [step_transaction hrunning hpending, transact, writePort_of_cmdPort hport]

theorem cmdWrite_of_incomplete {s : State} {v : Byte} (h : decode (s.cb ++ [v]) = .incomplete) :
    cmdWrite v s = .next { s with cb := s.cb ++ [v] } := by
  simp only [cmdWrite, State.appendCommand_cb, h]
  rfl

theorem cmdWrite_of_unrecognised {s : State} {v code : Byte} (h : decode (s.cb ++ [v]) = .unrecognised code) :
    cmdWrite v s = .next (State.raise { s with cb := s.cb ++ [v] } (.unknownCommand code)) := by
  simp only [cmdWrite, State.appendCommand_cb, h]
  rfl

theorem cmdWrite_of_unspecified {s : State} {v : Byte} {i : Instr} (h : decode (s.cb ++ [v]) = .unspecified i) :
    cmdWrite v s = exec i { s with cb := s.cb ++ [v] } := by
  simp only [cmdWrite, State.appendCommand_cb, h]
  rfl

theorem cmdWrite_of_complete {s : State} {v : Byte} {i : Instr} {n : Nat} (h : decode (s.cb ++ [v]) = .complete i n)
    (hlen : (s.cb ++ [v]).length = n) : cmdWrite v s = exec i { s with cb := [] } := by
  have hsplice : (s.appendCommand v).splice n = { s with cb := [] } := by
    simp [State.splice, State.appendCommand, List.drop_eq_nil_of_le hlen.le]
  simp only [cmdWrite, State.appendCommand_cb, h]
  exact (if_pos hlen).trans (by rw [hsplice])

/-- A buffer longer than its frame, which no run reaches (R24): the byte is appended. -/
theorem cmdWrite_of_overlong {s : State} {v : Byte} {i : Instr} {n : Nat} (h : decode (s.cb ++ [v]) = .complete i n)
    (hlen : (s.cb ++ [v]).length ≠ n) : cmdWrite v s = .next { s with cb := s.cb ++ [v] } := by
  simp only [cmdWrite, State.appendCommand_cb, h]
  exact if_neg hlen

/-- Settles O22: one equation of `cmdWrite` per answer of the decoder. -/
theorem stepRunsDecodedCommand : Obligations.StepRunsDecodedCommand := by
  intro s address v rest hrunning hpending hport
  rw [step_cmdWrite hrunning hpending hport]
  cases hdecode : decode (s.cb ++ [v]) with
  | incomplete => exact cmdWrite_of_incomplete hdecode
  | unrecognised code => exact cmdWrite_of_unrecognised hdecode
  | unspecified i => exact cmdWrite_of_unspecified hdecode
  | complete i n => exact fun hlen => cmdWrite_of_complete hdecode hlen

/-- Settles O23: the byte is outside the code map, so the decoder does not recognise it. -/
theorem unknownCodeFaults : Obligations.UnknownCodeFaults := by
  intro s address v rest hrunning hcb hpending hport hv
  have hnot : v ∉ ([1, 2, 3, 4, 5, 6, 7, 9, 10] : List Byte) := by
    obtain rfl | rfl | hhigh := hv
    · decide
    · decide
    · have hlow : ∀ c ∈ ([1, 2, 3, 4, 5, 6, 7, 9, 10] : List Byte), c.toNat < 0x0B := by decide
      exact fun hmem => absurd (hlow v hmem) (Nat.not_lt.2 hhigh)
  have hdecode : decode (s.cb ++ [v]) = .unrecognised v := by rw [hcb]; exact decode_of_not_code [] hnot
  rw [step_cmdWrite hrunning hpending hport, cmdWrite_of_unrecognised (s := { s with pending := rest }) hdecode, State.raise,
    hcb, List.nil_append]

/-- Settles O24: the three codes have no frame length, and the sixth byte of WRITESUM completes a frame that is refused. -/
theorem stepRefusesUndescribedCommands : Obligations.StepRefusesUndescribedCommands := by
  intro s address v rest hrunning hpending hport
  rw [step_cmdWrite hrunning hpending hport]
  refine ⟨fun hcb hv => ?_, fun d sLo sHi tLo hcb => ?_⟩
  · obtain rfl | rfl | rfl := hv
    · exact cmdWrite_of_unspecified (i := .read) (by simp only [hcb]; rfl)
    · exact cmdWrite_of_unspecified (i := .write) (by simp only [hcb]; rfl)
    · exact cmdWrite_of_unspecified (i := .serout) (by simp only [hcb]; rfl)
  · have hdecode : decode ([0x07, d, sLo, sHi, tLo] ++ [v]) =
        .complete (.writesum d (joinBytes sLo sHi) (joinBytes tLo v)) 6 := decode_of_whole_frame rfl rfl rfl
    rw [← hcb] at hdecode
    rw [cmdWrite_of_complete (s := { s with pending := rest }) hdecode (by simp [hcb]), exec_writesum]

/-! ## A frame written byte by byte (R50, R77) -/

/-- From the middle of a frame of `i`, with `q` still to be written: each byte but the last is appended to CB and completes
nothing, the last one runs `i`. -/
theorem run_of_frame_rest {i : Instr} (hwf : i.wellFormed = true) {rest : List Transaction} {q : List Byte} {s : State}
    (hframe : encode i = s.cb ++ q) (hq : q ≠ []) (hrunning : s.halt = none)
    (hpending : s.pending = q.map (Transaction.writePort 0) ++ rest) :
    ∃ t, Run (fun x => x.command? = none) s t ∧ t.command? = some i ∧
      step t = exec i { s with pending := rest, cb := [] } := by
  induction q generalizing s with
  | nil => exact absurd rfl hq
  | cons v q ih =>
    have hnext := State.next?_of_pending hrunning hpending
    have hstep := step_cmdWrite hrunning hpending rfl
    have hframe' : encode i = (s.cb ++ [v]) ++ q := by rw [hframe, List.append_assoc, List.singleton_append]
    by_cases hq : q = []
    · subst hq
      rw [List.append_nil] at hframe'
      have hdecode := decode_encode hwf
      rw [hframe'] at hdecode
      exact ⟨s, .here s, State.command?_of_complete hnext rfl hdecode rfl, hstep.trans (cmdWrite_of_complete hdecode rfl)⟩
    · have hdecode : decode (s.cb ++ [v]) = .incomplete := decode_of_frame_start hwf hframe' (by simp) hq
      have hnone : s.command? = none := State.command?_of_not_complete hnext (by simp [hdecode])
      obtain ⟨t, hrun, hcommand, hlast⟩ := ih
        (s := { s with pending := q.map (Transaction.writePort 0) ++ rest, cb := s.cb ++ [v] }) hframe' hq hrunning rfl
      exact ⟨t, .step hnone (hstep.trans (cmdWrite_of_incomplete hdecode)) hrun, hcommand, hlast⟩

/-- Settles O25: the whole frame is still to be written, and CB is empty before and after it. -/
theorem frameByteByByteRunsCommand : Obligations.FrameByteByByteRunsCommand := by
  intro s i rest hrunning hcb hwf hpending
  have hframe : encode i = s.cb ++ encode i := by rw [hcb, List.nil_append]
  have hrun := run_of_frame_rest hwf hframe (encode_ne_nil i) hrunning hpending
  rwa [← hcb] at hrun

/-- Settles O26: of the ways a step can go, only those of a write to the command port touch CB. -/
theorem otherTransactionsLeaveBuffer : Obligations.OtherTransactionsLeaveBuffer := by
  intro s t h hother
  cases (step_next_cases h).2 with
  | unknown address v _ _ hnext _ hport => exact absurd hport (hother address v hnext)
  | append address v _ hnext _ hport => exact absurd hport (hother address v hnext)
  | command address v _ _ _ _ hnext _ hport => exact absurd hport (hother address v hnext)
  | _ => rfl

end Sys2Proof.Machine
end

section
/-! PROOFS. The disk commands: each outcome of READDMA, WRITEDMA and READSUM as a whole next state (42_disk_commands.md R87 to R92),
and the sector a block created again finds (70_reset_and_hazards.md R142). -/

namespace Sys2Proof.Machine

/-! ## Sectors by their offset (R38, R39) -/

theorem loadSector_congr (d : Byte) {sector track sector' track' : U16} (s : State)
    (h : sectorOffset track sector = sectorOffset track' sector') :
    loadSector d sector track s = loadSector d sector' track' s := by
  simp only [loadSector, h]

/-- Settles O11: every disk command sees its pair only through `sectorOffset`. -/
theorem sectorPairsAlias : Obligations.SectorPairsAlias := by
  intro sector track sector' track' hpair d address s
  have hoff : sectorOffset track sector = sectorOffset track' sector' := by
    rw [sectorOffset_eq, sectorOffset_eq]
    omega
  refine ⟨?_, ?_, ?_⟩
  · simp only [exec, execReaddma, loadSector_congr d s hoff]
  · simp only [exec, execWritedma, hoff]
  · simp only [exec, execReadsum, loadSector_congr d s hoff]

/-! ## A disk that is not attached, and a disk that is too short (R87, R89) -/

theorem loadSector_of_missing {s : State} {d : Byte} (sector track : U16) (h : s.disk? d = none) :
    loadSector d sector track s = .error (s.raise (.diskIndexInvalid d)) := by
  simp only [loadSector, h]

theorem loadSector_of_short {s : State} {d : Byte} {sector track : U16} {dk : Disk} (hdk : s.disk? d = some dk)
    (hshort : dk.len < sectorOffset track sector + 128) : loadSector d sector track s =
      .error (s.loseScratch.raise (.shortRead d (sectorOffset track sector) (dk.len - sectorOffset track sector))) := by
  obtain ⟨hnone, _⟩ | ⟨dk₀, hdk₀, ⟨_, he⟩ | ⟨hheld, _⟩⟩ := loadSector_cases d sector track s
  · rw [hdk] at hnone; cases hnone
  · obtain rfl : dk₀ = dk := Option.some.inj (hdk₀.symm.trans hdk)
    exact he
  · obtain rfl : dk₀ = dk := Option.some.inj (hdk₀.symm.trans hdk)
    omega

/-- Settles O17: all three commands look for the disk first. -/
theorem missingDiskFaults : Obligations.MissingDiskFaults := by
  intro s d sector track address hmissing
  have hdisk := (s.disk?_eq_none_iff d).2 hmissing
  have hload := loadSector_of_missing sector track hdisk
  refine ⟨?_, ?_, ?_⟩
  · rw [exec, execReaddma, hload, State.raise]
  · simp only [exec, execWritedma, hdisk, State.raise]
  · rw [exec, execReadsum, hload, State.raise]

/-- Settles O18: both commands load the sector first, and SCRATCH takes 128 free bytes. -/
theorem shortReadFaults : Obligations.ShortReadFaults := by
  intro s d sector track address dk hdk hshort
  have hload := loadSector_of_short hdk hshort
  refine ⟨s.loseScratch.scratch, _, rfl, by simp, ?_, ?_⟩
  · rw [exec, execReaddma, hload]
    rfl
  · rw [exec, execReadsum, hload]
    rfl

/-! ## Reading a sector (R88, R92) -/

theorem State.sector?_of_held {s : State} {d : Byte} {sector track : U16} {dk : Disk} (hdk : s.disk? d = some dk)
    (hheld : sectorOffset track sector + 128 ≤ dk.len) :
    s.sector? d sector track = some (Disk.read dk (sectorOffset track sector) 128) :=
  State.sector?_eq_some_iff.2 ⟨dk, hdk, hheld, rfl⟩

/-- Settles O13: the sector goes through SCRATCH to the memory window, and no byte outside the window changes. -/
theorem readdmaTransfersSector : Obligations.ReaddmaTransfersSector := by
  intro s d sector track address dk hdk hheld
  have hsector := State.sector?_of_held hdk hheld
  have hlen := State.sector?_length hsector
  refine ⟨Memory.writeRange s.mem address.toNat (Disk.read dk (sectorOffset track sector) 128),
    exec_readdma_of_sector address hsector, fun i hi => ?_, fun a ha => ?_⟩
  · rw [Memory.byte_writeRange_in _ _ _ _ (by rwa [hlen]) (by rw [hlen]; decide), Disk.read_getElem]
  · exact Memory.byte_writeRange_out _ _ _ _ fun i hi => ha i (by rwa [← hlen])

theorem readsumResponse_eq {bs : List Byte} (h : bs.length = 128) : readsumResponse bs =
    [Config.success] ++ bs ++ [BitVec.ofNat 8 (byteSum bs), BitVec.ofNat 8 (byteSum bs / 256)] := by
  rw [readsumResponse, lowByte, highByte, checksum_toNat_of_sector h]
  rfl

/-- Settles O15: the response is made of the sector's bytes and their exact sum. -/
theorem readsumAnswersSectorAndSum : Obligations.ReadsumAnswersSectorAndSum := by
  intro s d sector track dk hdk hheld
  have hsector := State.sector?_of_held hdk hheld
  have hlen := State.sector?_length hsector
  refine ⟨_, _, hlen, fun i hi => Disk.read_getElem? dk hheld hi, rfl, ?_⟩
  rw [exec_readsum_of_sector hsector, readsumResponse_eq hlen]
  rfl

/-! ## Writing a sector (R90, R91) -/

/-- Settles O14: where store writes do not fail all 128 bytes are written, and the window, the old bytes and the gap are those of
`Disk.write`. -/
theorem writedmaStoresWindow : Obligations.WritedmaStoresWindow := by
  intro s d sector track address dk hdk hsafe
  have hcount := s.storeCount_of_safe hsafe 128
  have hlen := Memory.readRange_length s.mem address.toNat 128
  obtain ⟨hnone, _⟩ | ⟨dk₀, hdk₀, ⟨_, he⟩ | ⟨hshort, _⟩⟩ := execWritedma_cases d sector track address s
  · rw [hdk] at hnone; cases hnone
  · obtain rfl : dk₀ = dk := Option.some.inj (hdk₀.symm.trans hdk)
    refine ⟨_, he, by rw [Disk.write_len, hlen], fun i hi => ?_, fun o ho hout => ?_, fun o hend hgap => ?_⟩
    · rw [Disk.byte_write_in _ _ _ _ _ (by rwa [hlen]), Memory.readRange_getElem]
    · exact Disk.byte_write_out _ _ _ _ _ (by rwa [hlen]) (by omega)
    · exact Disk.byte_write_gap _ _ _ _ _ ⟨hend, hgap⟩
  · omega

theorem State.storeWriteMayFail_of_short {s : State} {n : Nat} (h : s.storeCount n < n) : s.storeWriteMayFail = true := by
  by_contra hsafe
  rw [s.storeCount_of_safe (by simpa using hsafe)] at h
  exact Nat.lt_irrefl n h

/-- Settles O19: the two outcomes of a store write, each of which keeps the bytes outside its window. -/
theorem writedmaCompletesOrFallsShort : Obligations.WritedmaCompletesOrFallsShort := by
  intro s d sector track address dk hdk
  obtain ⟨hnone, _⟩ | ⟨dk₀, hdk₀, ⟨_, he⟩ | ⟨hshort, he⟩⟩ := execWritedma_cases d sector track address s
  · rw [hdk] at hnone; cases hnone
  all_goals obtain rfl : dk₀ = dk := Option.some.inj (hdk₀.symm.trans hdk)
  · have hkept := Disk.keptOutside_write dk₀ s.draws (sectorOffset track sector) (Memory.readRange s.mem address.toNat 128)
    rw [Memory.readRange_length] at hkept
    exact ⟨_, hkept, .inl he⟩
  · exact ⟨_, Disk.keptOutside_writeShort _ _ _ _, .inr ⟨State.storeWriteMayFail_of_short hshort, _, hshort, he⟩⟩

/-! ## Re-creation (R142) -/

/-- READDMA of a sector that the disk holds brings it to the memory window and takes no fault. -/
theorem readdma_brings_sector {s : State} {d : Byte} {sector track : U16} {p : List Byte} (address : U16)
    (h : s.sector? d sector track = some p) :
    ∃ v, exec (.readdma d sector track address) s = .next v ∧ v.halt = s.halt ∧
      Memory.readRange v.mem address.toNat 128 = p := by
  have hlen := State.sector?_length h
  have hback := Memory.readRange_writeRange s.mem address.toNat p (by rw [hlen]; decide)
  rw [hlen] at hback
  exact ⟨_, exec_readdma_of_sector address h, rfl, hback⟩

theorem State.sector?_recreate (s : State) (memInit : Memory) (mayFail : Bool) (d : Byte) (sector track : U16) :
    (s.recreate memInit mayFail).sector? d sector track = s.sector? d sector track := rfl

/-- Settles O50: the new block has the old disks, and a sector is read from its disk alone. -/
theorem recreatedBlockHoldsSector : Obligations.RecreatedBlockHoldsSector := by
  intro s t d sector track address address' memInit mayFail _ hwrite hrunning
  have hsector := exec_writedma_sector hwrite hrunning
  rw [← t.sector?_recreate memInit mayFail] at hsector
  exact readdma_brings_sector address' hsector

end Sys2Proof.Machine
end

section
/-! PROOFS. What a completed command can have done, and what each step keeps: queues, memory, disks, traces and faults
(10_state.md R12 to R20, 43_port_interface.md R109, 60_exceptions.md R121 to R128). -/

namespace Sys2Proof.Machine

/-! ## All that a command which answers a next state can have done -/

/-- The next states of the commands (41_console_commands.md R80, R81; 42_disk_commands.md R87 to R92). -/
inductive ExecCase (s : State) : Instr → State → Prop where
  | const : ExecCase s .const (s.respond (constResponse s.kq))
  | conin : ExecCase s .conin { s.respond (coninResponse s.kq) with kq := s.kq.tail }
  | missingDisk (i : Instr) (d : Byte) (sector track address : U16) :
      i = .readsum d sector track ∨ i = .readdma d sector track address ∨ i = .writedma d sector track address →
      s.disk? d = none → ExecCase s i (s.raise (.diskIndexInvalid d))
  | shortRead (i : Instr) (d : Byte) (sector track address : U16) (dk : Disk) :
      i = .readsum d sector track ∨ i = .readdma d sector track address →
      dk.len < sectorOffset track sector + 128 →
      ExecCase s i
        (s.loseScratch.raise (.shortRead d (sectorOffset track sector) (dk.len - sectorOffset track sector)))
  | sum (d : Byte) (sector track : U16) (p : List Byte) : s.sector? d sector track = some p →
      ExecCase s (.readsum d sector track) ((s.fillScratch p).respond (readsumResponse p))
  | load (d : Byte) (sector track address : U16) (p : List Byte) : s.sector? d sector track = some p →
      ExecCase s (.readdma d sector track address)
        (((s.fillScratch p).scratchToMemory address).respond readdmaResponse)
  | store (d : Byte) (sector track address : U16) (dk : Disk) : s.disk? d = some dk →
      ExecCase s (.writedma d sector track address)
        (State.respond
          { s with
            scratch := Memory.readRange s.mem address.toNat 128
            disks := s.disks.set d.toNat
              (Disk.write dk s.draws (sectorOffset track sector) (Memory.readRange s.mem address.toNat 128))
            draws := s.draws + 1 } writedmaResponse)
  | storeShort (d : Byte) (sector track address : U16) (dk : Disk) : s.disk? d = some dk → s.storeCount 128 < 128 →
      ExecCase s (.writedma d sector track address)
        (State.raise
          { s with
            scratch := Memory.readRange s.mem address.toNat 128
            disks := s.disks.set d.toNat (Disk.writeShort dk s.draws (sectorOffset track sector) 128)
            draws := s.draws + 1 } (.shortWrite d (sectorOffset track sector) (s.storeCount 128)))

/-- The inversion lemma of `exec`. -/
theorem exec_next_cases {i : Instr} {s t : State} (h : exec i s = .next t) : ExecCase s i t := by
  cases i with
  | read => simp at h
  | write => simp at h
  | serout => simp at h
  | writesum => simp at h
  | const => rw [exec_const, Host.Outcome.next.injEq] at h; subst h; exact .const
  | conin => rw [exec_conin, Host.Outcome.next.injEq] at h; subst h; exact .conin
  | readsum d sector track =>
    obtain ⟨hd, he⟩ | ⟨dk, hd, ⟨hl, he⟩ | ⟨hl, he⟩⟩ := execReadsum_cases d sector track s
    all_goals rw [exec, he, Host.Outcome.next.injEq] at h; subst h
    · exact .missingDisk _ d sector track 0 (.inl rfl) hd
    · exact .shortRead _ d sector track 0 dk (.inl rfl) hl
    · exact .sum d sector track _ (State.sector?_of_held hd hl)
  | readdma d sector track address =>
    obtain ⟨hd, he⟩ | ⟨dk, hd, ⟨hl, he⟩ | ⟨hl, he⟩⟩ := execReaddma_cases d sector track address s
    all_goals rw [exec, he, Host.Outcome.next.injEq] at h; subst h
    · exact .missingDisk _ d sector track address (.inr (.inl rfl)) hd
    · exact .shortRead _ d sector track address dk (.inr rfl) hl
    · exact .load d sector track address _ (State.sector?_of_held hd hl)
  | writedma d sector track address =>
    obtain ⟨hd, he⟩ | ⟨dk, hd, ⟨_, he⟩ | ⟨hl, he⟩⟩ := execWritedma_cases d sector track address s
    all_goals rw [exec, he, Host.Outcome.next.injEq] at h; subst h
    · exact .missingDisk _ d sector track address (.inr (.inr rfl)) hd
    · exact .store d sector track address dk hd
    · exact .storeShort d sector track address dk hd hl

/-! ## The response queue (R59, R109, R112) -/

theorem State.pushed_of_no_command {s : State} (h : s.command? = none) : s.pushed = [] := by
  simp only [State.pushed, h]

theorem State.pushed_of_command {s : State} {i : Instr} (h : s.command? = some i) : s.pushed = responseOf i s := by
  simp only [State.pushed, h]

theorem State.popped_of_cmdPort {s : State} {address : Nat} (h : s.next? = some (.readPort address))
    (hport : address % 256 = 0) : s.popped = s.rq.take 1 := by
  simp only [State.popped, h, if_pos ((portOf_eq_cmdPort_iff address).2 hport)]

/-- No other transaction takes a byte from RQ. -/
theorem State.popped_of_other {s : State}
    (h : ∀ address, s.next? = some (.readPort address) → address % 256 ≠ 0) : s.popped = [] := by
  unfold State.popped
  split
  · next address hnext => exact if_neg fun hport => h address hnext ((portOf_eq_cmdPort_iff address).1 hport)
  · rfl

/-- Settles O40: only a read of the command port pops, and only a completed command pushes. -/
theorem stepMovesResponseQueue : Obligations.StepMovesResponseQueue := by
  intro s t h
  cases (step_next_cases h).2 with
  | pop address _ b q hnext hcommand hport hrq =>
    rw [State.pushed_of_no_command hcommand, State.popped_of_cmdPort hnext hport, hrq, List.append_nil]
    rfl
  | underflow address _ hnext hcommand hport hrq =>
    rw [State.pushed_of_no_command hcommand, State.popped_of_cmdPort hnext hport, hrq]
    rfl
  | warning address _ hnext hcommand hport =>
    rw [State.pushed_of_no_command hcommand, State.popped_of_other (by simpa [hnext] using hport), List.append_nil]
    rfl
  | command _ _ _ i _ _ hnext hcommand _ _ _ hexec =>
    rw [State.pushed_of_command hcommand, State.popped_of_other (by simp [hnext]), exec_response hexec, responseOf_framer]
    rfl
  | idle hnext hcommand | readMemory _ _ hnext hcommand | writeMemory _ _ _ hnext hcommand | key _ _ hnext hcommand
  | console _ _ _ hnext hcommand | unmappedWrite _ _ _ hnext hcommand | unknown _ _ _ _ hnext hcommand
  | append _ _ _ hnext hcommand =>
    rw [State.pushed_of_no_command hcommand, State.popped_of_other (by simp [hnext]), List.append_nil]
    rfl

/-- Settles O41: induction over the run, one step of it by `stepMovesResponseQueue`. -/
theorem responseQueueIsFifo : Obligations.ResponseQueueIsFifo := by
  intro s t pushes got h
  induction h with
  | here s => rw [List.append_nil, List.nil_append]
  | @step s t u pushes got hstep _ ih =>
    calc s.rq ++ (s.pushed ++ pushes) = (s.rq ++ s.pushed) ++ pushes := (List.append_assoc ..).symm
      _ = (s.popped ++ t.rq) ++ pushes := by rw [stepMovesResponseQueue s t hstep]
      _ = s.popped ++ (t.rq ++ pushes) := List.append_assoc ..
      _ = s.popped ++ (got ++ u.rq) := by rw [ih]
      _ = (s.popped ++ got) ++ u.rq := (List.append_assoc ..).symm

/-! ## The key queue (R14) -/

theorem exec_kq {i : Instr} {s t : State} (h : exec i s = .next t) :
    t.kq = if i = .conin then s.kq.tail else s.kq := by
  cases exec_next_cases h with
  | missingDisk _ _ _ _ _ hi => obtain rfl | rfl | rfl := hi <;> rfl
  | shortRead _ _ _ _ _ _ hi => obtain rfl | rfl := hi <;> rfl
  | _ => rfl

/-- Settles O42: the command cases by `exec_kq`; of the other steps only a keyPush touches KQ. -/
theorem keyQueueChangesOnlyByPushAndConin : Obligations.KeyQueueChangesOnlyByPushAndConin := by
  intro s t h
  cases (step_next_cases h).2 with
  | command _ _ _ i _ _ hnext hcommand _ _ _ hexec => simp [hnext, hcommand, exec_kq hexec]
  | idle hnext hcommand | pop _ _ _ _ hnext hcommand | underflow _ _ hnext hcommand | warning _ _ hnext hcommand
  | readMemory _ _ hnext hcommand | writeMemory _ _ _ hnext hcommand | key _ _ hnext hcommand
  | console _ _ _ hnext hcommand | unmappedWrite _ _ _ hnext hcommand | unknown _ _ _ _ hnext hcommand
  | append _ _ _ hnext hcommand => simp [hnext, hcommand]

/-! ## Memory (R12) -/

/-- Only READDMA changes memory, and only in its window. -/
theorem exec_memory_changes {i : Instr} {s t : State} (h : exec i s = .next t) {a : Nat}
    (hchange : Memory.byte t.mem a ≠ Memory.byte s.mem a) :
    ∃ d sector track address, i = .readdma d sector track address ∧ ∃ j < 128, (address.toNat + j) % 65536 = a % 65536 := by
  cases exec_next_cases h with
  | load d sector track address p hsector =>
    refine ⟨d, sector, track, address, rfl, ?_⟩
    by_contra! hout
    exact hchange (Memory.byte_writeRange_out p s.mem address.toNat a fun j hj =>
      hout j (by rwa [← State.sector?_length hsector]))
  | _ => exact absurd rfl hchange

/-- Settles O43: a writeMemory reaches one reduced address, a READDMA its window, and no other step memory at all. -/
theorem memoryChangesOnlyByWriteAndReaddma : Obligations.MemoryChangesOnlyByWriteAndReaddma := by
  intro s t h a hchange
  cases (step_next_cases h).2 with
  | writeMemory address v _ hnext =>
    refine .inl ⟨address, v, hnext, ?_⟩
    by_contra hother
    exact hchange (Memory.byte_setByte_other s.mem v fun he => hother he.symm)
  | command _ _ _ i _ _ _ hcommand _ _ _ hexec =>
    obtain ⟨d, sector, track, address, rfl, hwindow⟩ := exec_memory_changes hexec hchange
    exact .inr ⟨d, sector, track, address, hcommand, hwindow⟩
  | _ => exact absurd rfl hchange

/-! ## The disks (R16, R23) -/

theorem step_keeps_storeWriteMayFail {s t : State} (h : step s = .next t) : t.storeWriteMayFail = s.storeWriteMayFail := by
  cases (step_next_cases h).2 with
  | command _ _ _ _ _ _ _ _ _ _ _ hexec =>
    obtain ⟨_, _, _, _, hparameter, _⟩ := exec_keeps hexec
    exact hparameter
  | _ => rfl

/-- Settles O44: a step leaves the disks as they were or sets the one its WRITEDMA names. -/
theorem disksChangeOnlyByWritedma : Obligations.DisksChangeOnlyByWritedma := by
  intro s t h
  obtain hsame | ⟨d, sector, track, address, hcommand, dk, dk', _, hset, _⟩ := step_disks_cases h
  · exact ⟨by rw [hsame], step_keeps_storeWriteMayFail h, fun k hk => absurd (by rw [hsame]) hk⟩
  · refine ⟨by rw [hset, List.length_set], step_keeps_storeWriteMayFail h, fun k hk => ?_⟩
    refine ⟨d, sector, track, address, hcommand, ?_⟩
    by_contra hne
    exact hk (by rw [hset, List.getElem?_set_ne hne])

/-! ## Faults (R121, R122, R126) -/

/-- The cause is one that the command `i` can raise in the state `s`. -/
def FaultCause.fits (cause : FaultCause) (i : Instr) (s : State) : Prop :=
  match cause with
  | .unmappedPortWrite _ _ => False
  | .unknownCommand _ => False
  | .diskIndexInvalid d => s.disks.length ≤ d.toNat ∧
      ∃ sector track a, i = .readsum d sector track ∨ i = .readdma d sector track a ∨ i = .writedma d sector track a
  | .shortRead d off n => n < 128 ∧ ∃ sector track a, off = sectorOffset track sector ∧
      (i = .readsum d sector track ∨ i = .readdma d sector track a)
  | .shortWrite d off n => n < 128 ∧ s.storeWriteMayFail = true ∧ ∃ sector track a,
      off = sectorOffset track sector ∧ i = .writedma d sector track a

/-- A command leaves HALT and LOG as they were, or takes a fault that fits it. -/
theorem exec_halt_cases {i : Instr} {s t : State} (h : exec i s = .next t) :
    (t.halt = s.halt ∧ t.log = s.log) ∨
    ∃ cause : FaultCause, cause.fits i s ∧ t.halt = some cause ∧ t.log = s.log ++ [.fatal cause] := by
  cases exec_next_cases h with
  | missingDisk _ d sector track address hi hdisk =>
    exact .inr ⟨.diskIndexInvalid d, ⟨(s.disk?_eq_none_iff d).1 hdisk, sector, track, address, hi⟩, rfl, rfl⟩
  | shortRead _ d sector track address dk hi hshort =>
    refine .inr ⟨.shortRead d (sectorOffset track sector) (dk.len - sectorOffset track sector),
      ⟨?_, sector, track, address, rfl, hi⟩, rfl, rfl⟩
    omega
  | storeShort d sector track address dk _ hshort =>
    exact .inr ⟨.shortWrite d (sectorOffset track sector) (s.storeCount 128),
      ⟨hshort, State.storeWriteMayFail_of_short hshort, sector, track, address, rfl, rfl⟩, rfl, rfl⟩
  | _ => exact .inl ⟨rfl, rfl⟩

/-- Settles O39: an unmapped write and an unknown code fault by themselves, every other fault is a completed command's. -/
theorem faultsComeFromPortWrites : Obligations.FaultsComeFromPortWrites := by
  intro s t hrunning h cause hcause
  cases (step_next_cases h).2 with
  | unmappedWrite address v _ hnext _ hcmd hconsole =>
    obtain rfl := Option.some.inj hcause
    have hport := portOf_toNat address
    exact ⟨address, v, hnext, hconsole, hport, by rwa [hport], rfl⟩
  | unknown address v code _ hnext _ hport hdecode =>
    obtain rfl := Option.some.inj hcause
    obtain ⟨hhead, hlen⟩ := decode_eq_unrecognised hdecode
    exact ⟨address, v, hnext, by omega, hport, hhead, hlen⟩
  | command address v _ i _ _ hnext hcommand hport _ _ hexec =>
    refine ⟨address, v, hnext, by omega, ?_⟩
    obtain ⟨hsame, _⟩ | ⟨cause', hfits, hhalt, _⟩ := exec_halt_cases hexec
    · rw [hsame, hrunning] at hcause
      cases hcause
    · obtain rfl : cause' = cause := Option.some.inj (hhalt.symm.trans hcause)
      simp only [hcommand, Option.some.injEq]
      cases cause' with
      | unmappedPortWrite | unknownCommand => exact hfits.elim
      | _ => exact hfits
  | _ => exact absurd (hrunning.symm.trans hcause) nofun

/-! ## The traces (R19, R20) -/

/-- Settles O45: an unmapped read, a fault and no other step log an event; the two kinds of reads and no other step return a byte. -/
theorem tracesOnlyGrow : Obligations.TracesOnlyGrow := by
  intro s t h
  cases (step_next_cases h).2 with
  | command address v _ i _ _ hnext _ hport _ _ hexec =>
    obtain ⟨_, _, hconsole, hreturned, _, _⟩ := exec_keeps hexec
    refine ⟨?_, ⟨[], by rw [hreturned, List.append_nil]⟩, by simp [hnext, hport, hconsole]⟩
    obtain ⟨_, hlog⟩ | ⟨cause, _, _, hlog⟩ := exec_halt_cases hexec
    · exact ⟨[], by simp [hlog]⟩
    · exact ⟨[.fatal cause], by simp [hlog]⟩
  | warning _ _ hnext => exact ⟨⟨[_], rfl, by simp⟩, ⟨[_], rfl⟩, by simp [hnext]⟩
  | pop _ _ _ _ hnext | underflow _ _ hnext | readMemory _ _ hnext =>
    exact ⟨⟨[], by simp⟩, ⟨[_], rfl⟩, by simp [hnext]⟩
  | idle hnext | writeMemory _ _ _ hnext | key _ _ hnext => exact ⟨⟨[], by simp⟩, ⟨[], by simp⟩, by simp [hnext]⟩
  | console _ _ _ hnext _ hport => exact ⟨⟨[], by simp⟩, ⟨[], by simp⟩, by simp [hnext, hport]⟩
  | unmappedWrite _ _ _ hnext _ _ hport => exact ⟨⟨[_], rfl, by simp⟩, ⟨[], by simp⟩, by simp [hnext, hport]⟩
  | unknown _ _ _ _ hnext _ hport => exact ⟨⟨[_], rfl, by simp⟩, ⟨[], by simp⟩, by simp [hnext, hport]⟩
  | append _ _ _ hnext _ hport => exact ⟨⟨[], by simp⟩, ⟨[], by simp⟩, by simp [hnext, hport]⟩

end Sys2Proof.Machine
end

section
/-! PROOFS. The transactions that are told by one equation, what stops a block, and SCRATCH (00_scope.md R5 to R8, 10_state.md R17,
43_port_interface.md R102, R107, R108, 60_exceptions.md R127, R128). -/

namespace Sys2Proof.Machine

/-! ## Transactions as whole next states (R102, R107, R108) -/

theorem readPort_of_other {address : Nat} (h : address % 256 ≠ 0) (s : State) :
    readPort address s = (s.warn (portOf address)).answer (.port (portOf address) 0x00) := by
  rw [readPort, if_neg fun hport => h ((portOf_eq_cmdPort_iff address).1 hport)]

/-- Settles O28: a read that is not routed to the command port warns and answers 0x00. -/
theorem unmappedReadWarns : Obligations.UnmappedReadWarns := by
  intro s address rest hrunning hpending hport
  rw [step_transaction hrunning hpending, transact, readPort_of_other hport]
  rfl

theorem writePort_of_unmapped {address : Nat} (hcmd : address % 256 ≠ 0) (hconsole : address % 256 ≠ 0x80) (v : Byte)
    (s : State) : writePort address v s = .next (s.raise (.unmappedPortWrite (portOf address) v)) := by
  rw [writePort, if_neg fun hport => hconsole ((portOf_eq_consolePort_iff address).1 hport),
    if_neg fun hport => hcmd ((portOf_eq_cmdPort_iff address).1 hport)]

/-- Settles O32: a write that is routed to neither port takes the fault with the masked port. -/
theorem unmappedWriteFaults : Obligations.UnmappedWriteFaults := by
  intro s address v rest hrunning hpending hcmd hconsole
  refine ⟨_, rfl, ?_⟩
  rw [step_transaction hrunning hpending, transact, writePort_of_unmapped hcmd hconsole]
  rfl

/-- Settles O33: the transaction is `State.pushKey`. -/
theorem keyPushAppends : Obligations.KeyPushAppends := by
  intro s b rest hrunning hpending
  rw [step_transaction hrunning hpending, transact, State.pushKey]

/-! ## The step (R5, R7, R127) -/

/-- Settles O36: the two cases of a step of a running block. -/
theorem stepTakesNextTransaction : Obligations.StepTakesNextTransaction :=
  fun _ hrunning => ⟨step_idle hrunning, fun _ _ hpending => step_transaction hrunning hpending⟩

/-- Settles O37: the step looks at HALT first. -/
theorem haltedBlockAcceptsNothing : Obligations.HaltedBlockAcceptsNothing :=
  fun _ _ hhalt => step_halted hhalt

/-! ## Refusals (R128) -/

/-- The refusals of the four commands no source describes (decisions D4, D5). -/
def Refusal.undescribed (r : Refusal) : Prop :=
  r = .unspecifiedCommand 0x01 ∨ r = .unspecifiedCommand 0x02 ∨ r = .unspecifiedCommand 0x05 ∨ r = .unspecifiedHandler 0x07

/-- A command answers a next state or is refused as undescribed. -/
theorem exec_outcome (i : Instr) (s : State) :
    (∃ t, exec i s = .next t) ∨ ∃ r : Refusal, r.undescribed ∧ exec i s = .refused r := by
  cases i with
  | read => exact .inr ⟨_, .inl rfl, exec_read s⟩
  | write => exact .inr ⟨_, .inr (.inl rfl), exec_write s⟩
  | serout => exact .inr ⟨_, .inr (.inr (.inl rfl)), exec_serout s⟩
  | writesum d sector track => exact .inr ⟨_, .inr (.inr (.inr rfl)), exec_writesum d sector track s⟩
  | const => exact .inl ⟨_, exec_const s⟩
  | conin => exact .inl ⟨_, exec_conin s⟩
  | readsum d sector track =>
    obtain ⟨_, he⟩ | ⟨_, _, ⟨_, he⟩ | ⟨_, he⟩⟩ := execReadsum_cases d sector track s
    all_goals exact .inl ⟨_, he⟩
  | readdma d sector track address =>
    obtain ⟨_, he⟩ | ⟨_, _, ⟨_, he⟩ | ⟨_, he⟩⟩ := execReaddma_cases d sector track address s
    all_goals exact .inl ⟨_, he⟩
  | writedma d sector track address =>
    obtain ⟨_, he⟩ | ⟨_, _, ⟨_, he⟩ | ⟨_, he⟩⟩ := execWritedma_cases d sector track address s
    all_goals exact .inl ⟨_, he⟩

theorem cmdWrite_outcome (v : Byte) (s : State) :
    (∃ t, cmdWrite v s = .next t) ∨ ∃ r : Refusal, r.undescribed ∧ cmdWrite v s = .refused r := by
  obtain ⟨_, _, he⟩ | ⟨i, _, he⟩ | ⟨_, he⟩ | ⟨i, _, _, _, he⟩ | ⟨_, _, _, _, he⟩ := cmdWrite_cases v s
  all_goals rw [he]
  case inr.inl | inr.inr.inr.inl => exact exec_outcome i _
  all_goals exact .inl ⟨_, rfl⟩

/-- A transaction answers a next state, or is a write to the command port that is refused as undescribed. -/
theorem transact_outcome (x : Transaction) (s : State) :
    (∃ t, transact x s = .next t) ∨
    ∃ address v, x = .writePort address v ∧ address % 256 = 0 ∧
      ∃ r : Refusal, r.undescribed ∧ transact x s = .refused r := by
  cases x with
  | writePort address v =>
    by_cases hcmd : address % 256 = 0
    · rw [transact, writePort_of_cmdPort hcmd]
      exact (cmdWrite_outcome v s).imp_right fun hrefused => ⟨address, v, rfl, hcmd, hrefused⟩
    · by_cases hconsole : address % 256 = 0x80
      · exact .inl ⟨_, writePort_of_consolePort hconsole v s⟩
      · exact .inl ⟨_, writePort_of_unmapped hcmd hconsole v s⟩
  | _ => exact .inl ⟨_, rfl⟩

/-- Settles O38: a step of a running block is the idle step or a transaction, and neither faults. -/
theorem onlyUndescribedCommandsStop : Obligations.OnlyUndescribedCommandsStop := by
  intro s hrunning
  cases hpending : s.pending with
  | nil => simp [step_idle hrunning hpending]
  | cons x rest =>
    rw [step_transaction hrunning hpending]
    obtain ⟨t, he⟩ | ⟨address, v, rfl, hport, r, hr, he⟩ := transact_outcome x { s with pending := rest }
    · simp [he]
    · refine ⟨by simp [he], fun r' hr' => ?_⟩
      obtain rfl : r = r' := Host.Outcome.refused.inj (he.symm.trans hr')
      exact ⟨hr, address, v, State.next?_of_pending hrunning hpending, hport⟩

/-! ## SCRATCH is written before it is read (R17) -/

@[simp] theorem State.disk?_fillScratch (s : State) (bs : List Byte) (d : Byte) :
    (s.fillScratch bs).disk? d = s.disk? d := rfl

/-- On an attached disk READDMA and READSUM fill SCRATCH anew, or lose it. -/
theorem loadSector_fillScratch {s : State} {d : Byte} {dk : Disk} (sector track : U16) (bs : List Byte)
    (h : s.disk? d = some dk) : loadSector d sector track (s.fillScratch bs) = loadSector d sector track s := by
  simp only [loadSector, State.disk?_fillScratch, h]
  rfl

/-- On an attached disk WRITEDMA fills SCRATCH from memory. -/
theorem execWritedma_fillScratch {s : State} {d : Byte} {dk : Disk} (sector track address : U16) (bs : List Byte)
    (h : s.disk? d = some dk) :
    execWritedma d sector track address (s.fillScratch bs) = execWritedma d sector track address s := by
  simp only [execWritedma, State.disk?_fillScratch, h]
  rfl

/-- A command does not look at SCRATCH: it is left alone, or overwritten first. -/
theorem exec_fillScratch (i : Instr) (s : State) (bs : List Byte) :
    withoutScratch (exec i (s.fillScratch bs)) = withoutScratch (exec i s) := by
  cases i with
  | readsum d sector track =>
    cases hdk : s.disk? d with
    | none => simp only [exec, execReadsum, loadSector, State.disk?_fillScratch, hdk]; rfl
    | some dk => simp only [exec, execReadsum, loadSector_fillScratch sector track bs hdk]
  | readdma d sector track address =>
    cases hdk : s.disk? d with
    | none => simp only [exec, execReaddma, loadSector, State.disk?_fillScratch, hdk]; rfl
    | some dk => simp only [exec, execReaddma, loadSector_fillScratch sector track bs hdk]
  | writedma d sector track address =>
    cases hdk : s.disk? d with
    | none => simp only [exec, execWritedma, State.disk?_fillScratch, hdk]; rfl
    | some dk => simp only [exec, execWritedma_fillScratch sector track address bs hdk]
  | _ => rfl

theorem cmdWrite_fillScratch (v : Byte) (s : State) (bs : List Byte) :
    withoutScratch (cmdWrite v (s.fillScratch bs)) = withoutScratch (cmdWrite v s) := by
  cases h : decode (s.cb ++ [v]) with
  | incomplete => rw [cmdWrite_of_incomplete h, cmdWrite_of_incomplete (s := s.fillScratch bs) h]; rfl
  | unrecognised code => rw [cmdWrite_of_unrecognised h, cmdWrite_of_unrecognised (s := s.fillScratch bs) h]; rfl
  | unspecified i =>
    rw [cmdWrite_of_unspecified h, cmdWrite_of_unspecified (s := s.fillScratch bs) h]
    exact exec_fillScratch i { s with cb := s.cb ++ [v] } bs
  | complete i n =>
    by_cases hlen : (s.cb ++ [v]).length = n
    · rw [cmdWrite_of_complete h hlen, cmdWrite_of_complete (s := s.fillScratch bs) h hlen]
      exact exec_fillScratch i { s with cb := [] } bs
    · rw [cmdWrite_of_overlong h hlen, cmdWrite_of_overlong (s := s.fillScratch bs) h hlen]
      rfl

theorem popResponse_fillScratch (s : State) (bs : List Byte) :
    popResponse (s.fillScratch bs) = (popResponse s).fillScratch bs := by
  cases h : s.rq with
  | nil => rw [popResponse_of_nil h, popResponse_of_nil (s := s.fillScratch bs) h]; rfl
  | cons b q => rw [popResponse_of_cons h, popResponse_of_cons (s := s.fillScratch bs) h]; rfl

theorem transact_fillScratch (x : Transaction) (s : State) (bs : List Byte) :
    withoutScratch (transact x (s.fillScratch bs)) = withoutScratch (transact x s) := by
  cases x with
  | readPort address =>
    by_cases hcmd : address % 256 = 0
    · rw [transact, transact, readPort_of_cmdPort hcmd, readPort_of_cmdPort hcmd, popResponse_fillScratch]
      rfl
    · rw [transact, transact, readPort_of_other hcmd, readPort_of_other hcmd]
      rfl
  | writePort address v =>
    by_cases hcmd : address % 256 = 0
    · rw [transact, transact, writePort_of_cmdPort hcmd, writePort_of_cmdPort hcmd, cmdWrite_fillScratch]
    · by_cases hconsole : address % 256 = 0x80
      · rw [transact, transact, writePort_of_consolePort hconsole, writePort_of_consolePort hconsole]
        rfl
      · rw [transact, transact, writePort_of_unmapped hcmd hconsole, writePort_of_unmapped hcmd hconsole]
        rfl
  | _ => rfl

/-- Settles O46: both blocks stand before the same transaction, which does not look at SCRATCH. -/
theorem scratchIsNotObservable : Obligations.ScratchIsNotObservable := by
  intro s other
  change withoutScratch (step (s.fillScratch other)) = _
  cases hhalt : s.halt with
  | some cause => rw [step_halted hhalt, step_halted (s := s.fillScratch other) hhalt]
  | none =>
    cases hpending : s.pending with
    | nil => rw [step_idle hhalt hpending, step_idle (s := s.fillScratch other) hhalt hpending]; rfl
    | cons x rest =>
      rw [step_transaction hhalt hpending, step_transaction (s := s.fillScratch other) hhalt hpending]
      exact transact_fillScratch x { s with pending := rest } other

end Sys2Proof.Machine
end

section
/-! PROOFS. The invariant at reset and over every step (10_state.md R24, section 5; 60_exceptions.md R122; 70_reset_and_hazards.md R140). -/

namespace Sys2Proof.Machine

/-! ## Reset (R140) -/

/-- Settles O49: each value stands in `State.resetWith`. -/
theorem resetValues : Obligations.ResetValues :=
  fun _ _ _ => ⟨rfl, rfl, rfl, rfl, rfl, rfl, rfl, rfl, rfl, List.length_replicate⟩

/-- Settles O48: no byte is free, CB and LOG are empty. -/
theorem resetMeetsInvariant : Obligations.ResetMeetsInvariant := by
  intro memInit diskInit mayFail hmem hdisks
  refine ⟨hmem, fun dk hdk => (hdisks dk hdk).1, fun dk hdk hole hhole => ?_, List.length_replicate, fun _ => rfl, ?_⟩
  · rw [(hdisks dk hdk).2] at hhole
    cases hhole
  · exact fun _ hevent => absurd hevent List.not_mem_nil

/-! ## What the named updates keep -/

theorem Inv.no_fatal {s : State} (h : Inv s) (hrunning : s.halt = none) : ∀ e ∈ s.log, e.isFatal = false := by
  have hlogged := h.faults_logged
  simpa only [State.faultsLogged, hrunning] using hlogged

/-- A fault of a running block is the last event of LOG; CB is then free of R24. -/
theorem Inv.raise {s : State} (h : Inv s) (hrunning : s.halt = none) (cause : FaultCause) : Inv (s.raise cause) :=
  { h with
    frame_pending := nofun
    faults_logged := ⟨s.log, rfl, h.no_fatal hrunning⟩ }

theorem Inv.warn {s : State} (h : Inv s) (hrunning : s.halt = none) (pa : Byte) : Inv (s.warn pa) where
  __ := h
  faults_logged := by
    have hlog : ∀ e ∈ (s.warn pa).log, e.isFatal = false := by
      simpa [LogEvent.isFatal, or_imp, forall_and] using h.no_fatal hrunning
    simpa only [State.faultsLogged, State.warn_halt, hrunning] using hlog

/-- SCRATCH may hold any 128 bytes. -/
theorem Inv.fillScratch {s : State} (h : Inv s) {bs : List Byte} (hlen : bs.length = 128) : Inv (s.fillScratch bs) :=
  { h with scratch_length := hlen }

theorem Inv.loseScratch {s : State} (h : Inv s) : Inv s.loseScratch :=
  { h with
    scratch_length := by simp
    holes_drawn := fun dk hdk hole hhole => Nat.lt_succ_of_lt (h.holes_drawn dk hdk hole hhole) }

theorem Inv.scratchToMemory {s : State} (h : Inv s) (address : U16) : Inv (s.scratchToMemory address) :=
  { h with mem_wf := Memory.writeRange_wf h.mem_wf _ _ }

theorem Inv.respond {s : State} (h : Inv s) (bs : List Byte) : Inv (s.respond bs) :=
  { h with }

/-- A disk may be replaced by one in canonical form, its free bytes from the draw made for it or from earlier ones. -/
theorem Inv.storeDisk {s : State} (h : Inv s) {k : Nat} {dk : Disk} {bs : List Byte} (hwf : Disk.wf dk)
    (hdrawn : ∀ hole ∈ dk.holes, hole.draw < s.draws + 1) (hlen : bs.length = 128) :
    Inv { s with scratch := bs, disks := s.disks.set k dk, draws := s.draws + 1 } :=
  { h with
    disks_wf := fun dk' hdk' => by
      obtain hold | rfl := List.mem_or_eq_of_mem_set hdk'
      · exact h.disks_wf dk' hold
      · exact hwf
    holes_drawn := fun dk' hdk' hole hhole => by
      obtain hold | rfl := List.mem_or_eq_of_mem_set hdk'
      · exact Nat.lt_succ_of_lt (h.holes_drawn dk' hold hole hhole)
      · exact hdrawn hole hhole
    scratch_length := hlen }

theorem Inv.disk_wf {s : State} (h : Inv s) {d : Byte} {dk : Disk} (hdk : s.disk? d = some dk) : Disk.wf dk :=
  h.disks_wf dk (List.mem_of_getElem? hdk)

theorem Inv.disk_drawn {s : State} (h : Inv s) {d : Byte} {dk : Disk} (hdk : s.disk? d = some dk) :
    ∀ hole ∈ dk.holes, hole.draw < s.draws + 1 :=
  fun hole hhole => Nat.lt_succ_of_lt (h.holes_drawn dk (List.mem_of_getElem? hdk) hole hhole)

/-! ## Commands -/

theorem exec_keeps_inv {i : Instr} {s t : State} (h : Inv s) (hrunning : s.halt = none) (hexec : exec i s = .next t) :
    Inv t := by
  cases exec_next_cases hexec with
  | const => exact h.respond _
  | conin => exact { h with }
  | missingDisk => exact h.raise hrunning _
  | shortRead => exact h.loseScratch.raise hrunning _
  | sum _ _ _ _ hsector => exact (h.fillScratch (State.sector?_length hsector)).respond _
  | load _ _ _ address _ hsector =>
    exact ((h.fillScratch (State.sector?_length hsector)).scratchToMemory address).respond _
  | store _ _ _ _ _ hdk =>
    exact (h.storeDisk (Disk.write_wf (h.disk_wf hdk) _ _ _) (Disk.write_draws (Nat.lt_succ_self _) (h.disk_drawn hdk))
      (Memory.readRange_length _ _ _)).respond _
  | storeShort _ _ _ _ _ hdk =>
    exact (h.storeDisk (Disk.writeShort_wf (h.disk_wf hdk) _ _ _ (by decide))
      (Disk.writeShort_draws (Nat.lt_succ_self _) (h.disk_drawn hdk)) (Memory.readRange_length _ _ _)).raise hrunning _

/-! ## The framer (R24) -/

/-- A buffer that R24 allows grows by one byte to a whole frame at most. -/
theorem length_le_of_framePending {cb : List Byte} (hpending : framePending cb = true) {v : Byte} {i : Instr} {n : Nat}
    (hdecode : decode (cb ++ [v]) = .complete i n) : (cb ++ [v]).length ≤ n := by
  cases cb with
  | nil =>
    obtain ⟨_, _, htake⟩ := encodeGivesDecodedFrame _ i n hdecode
    have hpos : n ≠ 0 := fun h0 => encode_ne_nil i (by rw [htake, h0, List.take_zero])
    exact Nat.one_le_iff_ne_zero.2 hpos
  | cons code params =>
    obtain ⟨hlen, _⟩ : frameLen code = .length n ∧ n ≤ (params ++ [v]).length + 1 := by
      have hfirst := firstByteDecidesLength code (params ++ [v])
      rwa [← List.cons_append, hdecode] at hfirst
    simp only [framePending, hlen, decide_eq_true_eq] at hpending
    simpa using hpending

/-- Settles O47: a command keeps the invariant from an empty buffer; each other step keeps it part by part. -/
theorem stepKeepsInvariant : Obligations.StepKeepsInvariant := by
  intro s t h hstep
  obtain ⟨hrunning, hcase⟩ := step_next_cases hstep
  cases hcase with
  | idle => exact h
  | pop | underflow | readMemory | key | console => exact { h with }
  | warning address rest =>
    have hwarn := h.warn hrunning (portOf address)
    exact { hwarn with }
  | writeMemory => exact { h with mem_wf := Memory.setByte_wf h.mem_wf _ _ }
  | unmappedWrite address v rest =>
    have hraise := h.raise hrunning (.unmappedPortWrite (portOf address) v)
    exact { hraise with }
  | unknown _ _ code =>
    have hraise := h.raise hrunning (.unknownCommand code)
    exact { hraise with frame_pending := nofun }
  | append _ v _ _ _ _ hdecode =>
    have hframe : framePending (s.cb ++ [v]) = true := by
      obtain hincomplete | ⟨i, n, hcomplete, hlong⟩ := hdecode
      · exact framePending_of_incomplete hincomplete
      · exact absurd (length_le_of_framePending (h.frame_pending hrunning) hcomplete) (Nat.not_le.2 hlong)
    exact { h with frame_pending := fun _ => hframe }
  | command _ _ rest _ _ _ _ _ _ _ _ hexec =>
    have hempty : Inv { s with pending := rest, cb := [] } := { h with frame_pending := fun _ => rfl }
    exact exec_keeps_inv hempty hrunning hexec

end Sys2Proof.Machine
end
